-- ==== Sys2Proof/Word.lean ====
section
/-! DEFINITION. The word types of BLINKT-ENC: a byte, and the two exact non-negative quantities (a brightness and a
duration), which are rationals because the spec computes on them in `Q` with no rounding (rules R11, R66, R92, R135). -/

namespace Sys2Proof

/-- A `u8` of rule R11: a lamp channel, a table entry, a byte of the command port, a character of a colour. -/
abbrev Byte := BitVec 8

/-- A non-negative exact rational (rule R11's `Q`, cut to what the source contemplates: rules R60, R135, U2). -/
abbrev NonNegRat := {q : ℚ // 0 ≤ q}

/-- A brightness factor: "every rule of the spec is stated over `b` in `Q`" (rule R66). -/
abbrev Brightness := NonNegRat

/-- A duration `d >= 0` (rule R135), in microseconds (rule R68). -/
abbrev Duration := NonNegRat

end Sys2Proof
end

