-- ==== Sys2Proof/Config.lean ====
section
/-! DEFINITION. What is fixed for one block and what the spec leaves open: the constants of rule R9, and the open parameters
of rule R10 (the gamma table, the two line identifiers, the pause of the fades, the pin collaborator's answers) as opaque
constants of which nothing is known but the laws the spec states. -/

namespace Sys2Proof

namespace Config

/-- `NUM_LAMPS` (rule R9). -/
abbrev numLamps : Nat := 8

/-- `CHANNEL_BITS` (rule R9): the width of `Byte`, which is the type of a channel. -/
abbrev channelBits : Nat := 8

/-- `GAMMA_ENTRIES` (rule R9). -/
abbrev gammaEntries : Nat := 256

/-- A channel is as wide as `CHANNEL_BITS` says: an audit that changes the one must change the other. -/
theorem byte_width : Byte = BitVec channelBits := rfl

/-- The table has one entry for every value of a channel (rules R27, R85). -/
theorem gammaEntries_eq : gammaEntries = 2 ^ channelBits := rfl

/-- `START_PULSES` (rule R9). -/
abbrev startPulses : Nat := 32

/-- `END_PULSES` (rule R9), a constant of its own (rule R200). -/
abbrev endPulses : Nat := 32

/-- `MARKER` (rules R9, R115). -/
abbrev marker : Byte := 0xFF

/-- `PACKET_BYTES` (rule R9): the marker and three channels. -/
abbrev packetBytes : Nat := 4

/-- `PACKET_BITS` (rule R9). -/
abbrev packetBits : Nat := packetBytes * channelBits

/-- `RAMP_STEPS` (rule R9). -/
abbrev rampSteps : Nat := 10

/-- `PAIRS` (rule R9). -/
abbrev pairs : Nat := 4

/-- `COLOR_DIGITS` (rule R9). -/
abbrev colorDigits : Nat := 6

/-- `FRAME_PULSES = 32 + 8*32 + 32` (rule R9). -/
abbrev framePulses : Nat := startPulses + numLamps * packetBits + endPulses

/-- The line writes of one frame (rule R117): in each framing part one hold and two for a pulse, and three for a bit. -/
abbrev frameWrites : Nat := (1 + 2 * startPulses) + 3 * (numLamps * packetBits) + (1 + 2 * endPulses)

/-- The values that rule R9 states for the derived constants, and rule R117's count. -/
theorem derived_constants : packetBits = 32 ∧ framePulses = 320 ∧ frameWrites = 898 := ⟨rfl, rfl, rfl⟩

end Config

/-- The error value `e` of a refused line write: four bytes, "uninterpreted and unchanged" (rules R69, R164). -/
structure PinErr where
  e0 : Byte
  e1 : Byte
  e2 : Byte
  e3 : Byte
  deriving DecidableEq, Repr, Inhabited

/-- The collaborator's answer to one line write (rules R34, R110). -/
inductive PinAnswer where
  | ok
  | err (e : PinErr)
  deriving DecidableEq, Repr, Inhabited

/-- A table that may serve as `GAMMA`: `GAMMA_ENTRIES` bytes (R27) with the two laws the spec states and no other (R86, R87, R89). The
field defaults only show that such a table exists. -/
structure GammaTable where
  /-- The entry at an address (rule R85). -/
  get : Byte → Byte := fun _ => 0
  /-- Rule R87. -/
  zero : get 0 = 0 := by rfl
  /-- Rule R86. -/
  mono : ∀ u v : Byte, u.toNat ≤ v.toNat → (get u).toNat ≤ (get v).toNat := by intros; exact Nat.le_refl _
  deriving Inhabited

/-- The two line identifiers, "required only to differ from each other" (rule R49). -/
structure LinePair where
  data : Nat := 0
  clk : Nat := 1
  distinct : data ≠ clk := by decide
  deriving Inhabited

namespace Config

/-- `GAMMA`, an open parameter (rules R88, R89): free but for its two laws. Log 6. -/
opaque gamma : GammaTable

/-- `DATA_LINE` and `CLK_LINE`, open parameters (rules R10, R49). Log 7. -/
opaque lines : LinePair

/-- `ANIM_PAUSE`, an open parameter (rules R10, R147). Log 8. -/
opaque animPause : Duration

/-- The collaborator's answer to the n-th line write of a run, an input under no law (rules R34, R164, U6). Log 9. -/
opaque pinAnswer : Nat → PinAnswer

/-- `GAMMA_ID` of rule R90: a test table of the spec's, not the hardware's. -/
def gammaId : GammaTable where
  get v := v
  zero := rfl
  mono _ _ h := h

/-- `GAMMA_SQ` of rule R90: a test table of the spec's, not the hardware's. -/
def gammaSq : GammaTable where
  get v := BitVec.ofNat 8 (v.toNat * v.toNat / 255)
  zero := rfl
  mono u v h := by
    have bound : ∀ w : Byte, w.toNat * w.toNat / 255 < 256 := fun w =>
      Nat.div_lt_of_lt_mul (by nlinarith [w.isLt])
    simp only [BitVec.toNat_ofNat]
    rw [Nat.mod_eq_of_lt (bound u), Nat.mod_eq_of_lt (bound v)]
    exact Nat.div_le_div_right (Nat.mul_le_mul h h)

end Config

end Sys2Proof
end

