-- ==== Sys2Proof/Machine/State.lean ====
section
/-! DEFINITION. The state of the block (rule R34) as plain data, with the command port and the collaborator's answers as data
beside it, the state after reset (rule R32), and the ways a step can stop. -/

namespace Sys2Proof.Machine

open Sys2Proof

/-- A lamp register: "three intensities `red, green, blue`" (rule R20). -/
structure LampSetting where
  red : Byte
  green : Byte
  blue : Byte
  deriving DecidableEq, Repr

/-- The lamp register file, lamp 0 to lamp 7 (rule R20). -/
abbrev Strip := Vector LampSetting Config.numLamps

/-- The value of a lamp that is off (rule R97). -/
def LampSetting.off : LampSetting := ⟨0, 0, 0⟩

/-- Every lamp off (rule R97). -/
def Strip.off : Strip := Vector.replicate Config.numLamps LampSetting.off

/-- `DSTATE`, the mode (rule R25). -/
inductive Mode where
  | uninitialized
  | active
  | closed
  deriving DecidableEq, Repr

/-- The two output lines (rules R28, R40). -/
inductive Line where
  | data
  | clk
  deriving DecidableEq, Repr

/-- The level of a line: 0 or 1 as last written, or `X` (rule R28). -/
inductive LineLevel where
  | driven (level : Bool)
  | x
  deriving DecidableEq, Repr

/-- An output event (rule R33). -/
inductive Event where
  /-- `W(line, level)`. -/
  | write (line : Line) (level : Bool)
  /-- `REL`. -/
  | rel
  /-- `P(d)`. -/
  | pause (d : Duration)
  deriving DecidableEq, Repr

/-- The faults a command can complete with (rule R160). They end the command, not the run: a command that takes one answers a
next state (rules R169, R171). -/
inductive CmdFault where
  /-- Rule R161. -/
  | invalidColorFormat
  /-- Rule R162. -/
  | indexOutOfRange
  /-- Rule R163. -/
  | postCloseUse
  /-- Rule R164, with the collaborator's error unchanged. -/
  | pinError (e : PinErr)
  /-- Rule R165. -/
  | stateError
  /-- Rule R166. -/
  | illegalCommand
  deriving DecidableEq, Repr

/-- `STATUS`, the result of the last completed command (rule R26). -/
inductive Status where
  | ok
  | fault (f : CmdFault)
  deriving DecidableEq, Repr

/-- The collaborator's answers as far as they are fixed in advance: every write numbered below `settled` is accepted, but for
those listed in `refusals`; the answers from `settled` on are the free value `Config.pinAnswer` (rules R34, U6). Log 9. -/
structure PinPlan where
  settled : Nat
  refusals : List (Nat × PinErr)
  deriving DecidableEq, Repr

/-- A reset strike (rule R190: "at any time, also during a command"), with when it falls and what comes after it. Log 4. -/
structure ResetStrike where
  /-- How many more commands complete before it. It falls in the next one, or while the block waits if none comes. -/
  commands : Nat
  /-- How many line writes that command has asked for by then; if it asks for fewer in all, the strike falls at its end. -/
  writes : Nat
  /-- The bytes the block receives after it. -/
  received : List Byte
  deriving DecidableEq, Repr

/-- The block, its command port and the inputs around it. -/
@[ext]
structure State where
  /-- `STRIP` (rule R20). -/
  strip : Strip
  /-- `DSTATE` (rule R25). -/
  dstate : Mode
  /-- `STATUS` (rule R26). -/
  status : Status
  /-- `OWN` (rule R29). -/
  own : Bool
  /-- `DAT` (rule R28). -/
  dat : LineLevel
  /-- `CLK` (rule R28). -/
  clk : LineLevel
  /-- `TRACE`, oldest first (rule R33). -/
  trace : List Event
  /-- The command stream: the bytes the host has sent and the block has not read (rules R40, R61). -/
  input : List Byte
  /-- The reset strikes still to come, the next one first (rule R190). Log 4. -/
  resets : List ResetStrike
  /-- The stream of response bytes (rules R61, R69). -/
  output : List Byte
  /-- The model's sticky record of faults, oldest first (rules R171, U3). Log 23. -/
  faultLog : List CmdFault
  /-- How many line writes the collaborator has been asked for: the number of the next one (rule R34). Log 9. -/
  pinWrites : Nat
  /-- The collaborator's answers as far as they are fixed in advance. Log 9. -/
  pins : PinPlan
  deriving DecidableEq, Repr

/-- The reasons for which the machine stops. There is none: every command in every state completes with a status (rules R34, R169)
and an incomplete packet is waited for (rule R72). Log 29. -/
inductive Fault where
  deriving DecidableEq, Repr

/-- The reasons for which an instruction is given no meaning. -/
inductive Refusal where
  /-- Raised by an arm of `exec` for an instruction not modelled yet; no arm does. Safe: the machine stops. -/
  | notModelled (mnemonic : String)
  deriving DecidableEq, Repr

/-- The state after reset (rule R32), with nothing received and nothing answered in advance. DESIGN CHOICE: `STRIP`, which rule R32
leaves unspecified, is all off (log 3). -/
def State.reset : State where
  strip := Strip.off
  dstate := .uninitialized
  status := .ok
  own := false
  dat := .x
  clk := .x
  trace := []
  input := []
  resets := []
  output := []
  faultLog := []
  pinWrites := 0
  pins := ⟨0, []⟩

end Sys2Proof.Machine
end

