-- ==== Sys2Proof/Machine/Flags.lean ====
section
/-! DEFINITION. The block has no flags (rule R24). What a host reads instead is the status byte of each command, and what stands
for a mode field is the code of `DSTATE`; both are computed here. -/

namespace Sys2Proof.Machine

open Sys2Proof

/-- The code of a fault (rules R69, R160). -/
def CmdFault.code : CmdFault → Byte
  | .invalidColorFormat => 0x01
  | .indexOutOfRange => 0x02
  | .postCloseUse => 0x03
  | .pinError _ => 0x04
  | .stateError => 0x05
  | .illegalCommand => 0x06

/-- The bytes after the code: the collaborator's error, for `PinError` (rule R69). -/
def CmdFault.payload : CmdFault → List Byte
  | .pinError e => [e.e0, e.e1, e.e2, e.e3]
  | .invalidColorFormat => []
  | .indexOutOfRange => []
  | .postCloseUse => []
  | .stateError => []
  | .illegalCommand => []

/-- The response to a command that completed with a status (rule R69). -/
def Status.response : Status → List Byte
  | .ok => [0x00]
  | .fault f => f.code :: f.payload

/-- The two-bit code of `DSTATE` (rule R25). No rule of the block reads it. -/
def Mode.code : Mode → BitVec 2
  | .uninitialized => 0
  | .active => 1
  | .closed => 2

end Sys2Proof.Machine
end

