-- ==== Sys2Proof/Syntax.lean ====
section
/-! DEFINITION. The abstract command set (rule R60): one constructor per row of spec/opcode_table.json, with the operands of
the source's signatures in their order, each of the widest type the spec presents it in (rule R77). Also the six opcodes as
names, and the colour constants of rule R74. -/

namespace Sys2Proof

/-- A colour operand: "any string may be presented" (rule R60); its characters one byte each (rules R65, R76). -/
abbrev Color := List Byte

/-- The six commands (rule R60). -/
inductive Instr where
  /-- `INIT color, brightness` (rule R138). -/
  | init (color : Color) (brightness : Brightness)
  /-- `SET led, color, brightness` (rule R95); "any integer may be presented" as `led`. -/
  | set (led : Int) (color : Color) (brightness : Brightness)
  /-- `SETALL color, brightness` (rule R96). -/
  | setall (color : Color) (brightness : Brightness)
  /-- `SHOW` (rule R120). -/
  | showFrame
  /-- `FLASH led, color, brightness, times, interval` (rule R140). -/
  | flash (led : Int) (color : Color) (brightness : Brightness) (times : Nat) (interval : Duration)
  /-- `CLOSE color, brightness` (rule R146). -/
  | close (color : Color) (brightness : Brightness)
  deriving DecidableEq, Repr

/-- The name of a command, as the opcode byte selects it (rule R63). -/
inductive Opcode where
  | init
  | set
  | setall
  | showFrame
  | flash
  | close
  deriving DecidableEq, Repr

/-- Which of the six commands an instruction is. -/
def Instr.opcode : Instr → Opcode
  | .init _ _ => .init
  | .set _ _ _ => .set
  | .setall _ _ => .setall
  | .showFrame => .showFrame
  | .flash _ _ _ _ _ => .flash
  | .close _ _ => .close

namespace Color

/-- "White=`FFFFFF`" (rule R74), in the character code of rule R76. -/
def white : Color := [0x46, 0x46, 0x46, 0x46, 0x46, 0x46]

/-- "Red=`FF0000`" (rule R74). -/
def red : Color := [0x46, 0x46, 0x30, 0x30, 0x30, 0x30]

/-- "Green=`00FF00`" (rule R74). -/
def green : Color := [0x30, 0x30, 0x46, 0x46, 0x30, 0x30]

/-- "Blue=`0000FF`" (rule R74). -/
def blue : Color := [0x30, 0x30, 0x30, 0x30, 0x46, 0x46]

/-- "Off=`000000`" (rule R74). -/
def off : Color := [0x30, 0x30, 0x30, 0x30, 0x30, 0x30]

end Color

end Sys2Proof
end

