-- ==== Sys2Proof/Machine/Operands.lean ====
section
/-! DEFINITION. What a command makes of its operands: parsing a colour (rule R91), scaling by a brightness (rules R92, R93), the
table lookup (rule R85), the ramp values (rule R136), the lamp index (rule R162). All arithmetic is exact (rule R102). -/

namespace Sys2Proof.Machine

open Sys2Proof

/-- `hexval` of a character in the code of rule R76; none for a character that is not a hexadecimal digit (rule R91). -/
def hexVal (c : Byte) : Option Nat :=
  let v := c.toNat
  if 0x30 ≤ v ∧ v ≤ 0x39 then some (v - 0x30)
  else if 0x41 ≤ v ∧ v ≤ 0x46 then some (v - 0x41 + 10)
  else if 0x61 ≤ v ∧ v ≤ 0x66 then some (v - 0x61 + 10)
  else none

/-- `16 * high + low` (rule R91). -/
def hexByte (hi lo : Byte) : Option Byte :=
  match hexVal hi, hexVal lo with
  | some h, some l => some (BitVec.ofNat 8 (16 * h + l))
  | some _, none => none
  | none, _ => none

/-- The raw channel values of a colour (rule R91). -/
structure Rgb where
  r : Byte
  g : Byte
  b : Byte
  deriving DecidableEq, Repr

/-- The channel that the characters `s[p]` and `s[p+1]` spell (rule R91). -/
def channelAt (s : Color) (p : Nat) : Option Byte :=
  match s[p]?, s[p + 1]? with
  | some hi, some lo => hexByte hi lo
  | some _, none => none
  | none, _ => none

/-- `ParseColor` (rule R91); none stands for `InvalidColorFormat`. -/
def parseColor (s : Color) : Option Rgb :=
  if s.length = Config.colorDigits then
    match channelAt s 0, channelAt s 2, channelAt s 4 with
    | some r, some g, some b => some ⟨r, g, b⟩
    | some _, some _, none => none
    | some _, none, _ => none
    | none, _, _ => none
  else none

/-- `rhu(x) = floor(x + 1/2)` (rule R11). -/
def rhu (x : ℚ) : Int := (x + 1 / 2).floor

/-- `sat8(n) = min(255, max(0, n))` (rules R11, R93): saturation at the table's last address. -/
def sat8 (n : Int) : Byte := BitVec.ofInt 8 (min ((Config.gammaEntries : Int) - 1) (max 0 n))

/-- `Scale(raw, b)` (rule R92). -/
def scale (raw : Byte) (b : ℚ) : Byte := sat8 (rhu ((raw.toNat : ℚ) * b))

/-- `correct(v)` (rule R85). -/
def correct (v : Byte) : Byte := Config.gamma.get v

/-- What `SetLamp` stores for a parsed colour at a brightness (rule R94). -/
def lampValue (c : Rgb) (b : ℚ) : LampSetting :=
  ⟨correct (scale c.r b), correct (scale c.g b), correct (scale c.b b)⟩

/-- `Up(b, k) = k * b / 10` (rule R136). -/
def rampUp (b : ℚ) (k : Nat) : ℚ := (k : ℚ) * b / (Config.rampSteps : ℚ)

/-- `Down(b, k) = (10 - k) * b / 10` (rule R136). -/
def rampDown (b : ℚ) (k : Nat) : ℚ := ((Config.rampSteps : ℚ) - (k : ℚ)) * b / (Config.rampSteps : ℚ)

/-- A lamp index, if it is one: 0..7, "never reduced modulo 8" (rules R46, R162). -/
def lampIndex (i : Int) : Option (Fin Config.numLamps) :=
  if h : 0 ≤ i ∧ i < (Config.numLamps : Int) then some ⟨i.toNat, by omega⟩ else none

end Sys2Proof.Machine
end

