-- ==== Sys2Proof/Machine/Ops.lean ====
section
/-! DEFINITION. The named operations the meanings are made of: how a statement of a command ends and how statements follow one
another (rule R15), the mode gate (rule R151), stores to lamp registers (rules R94, R97), the line primitives (rules R110, R135, R155),
completing a command with `Ok` or with a fault (rule R169), and reset (rule R190). -/

namespace Sys2Proof.Machine

open Sys2Proof

/-- How a statement of a command's body ends: it is done, or it raises a fault. Either way the state is the one it left: "no
rollback" (rule R15). -/
inductive Run where
  | done (s : State)
  | raised (f : CmdFault) (s : State)
  deriving DecidableEq, Repr

/-- One statement after another; a raised fault "performs nothing further" (rule R15). -/
def Run.andThen (r : Run) (next : State → Run) : Run :=
  match r with
  | .done s => next s
  | .raised f s => .raised f s

/-- What is done to the state on a fault, before the command completes with it (rule R138). -/
def Run.onFault (r : Run) (undo : State → State) : Run :=
  match r with
  | .done s => .done s
  | .raised f s => .raised f (undo s)

/-- The state a statement left. -/
def Run.state : Run → State
  | .done s => s
  | .raised _ s => s

/-- `for a in as: body(a)` (rule R157). -/
def forEach {α : Type} : List α → (α → State → Run) → State → Run
  | [], _, s => .done s
  | a :: as, body, s => (body a s).andThen (forEach as body)

/-- `repeat n times: body` (rule R157). -/
def repeatTimes : Nat → (State → Run) → State → Run
  | 0, _, s => .done s
  | n + 1, body, s => (body s).andThen (repeatTimes n body)

/-- The eight lamp indices in strip order (rules R20, R43). -/
def lamps : List (Fin Config.numLamps) := List.finRange Config.numLamps

/-- Lamp `7 - i`, the partner of lamp `i` (rule R142). -/
def partner (i : Fin Config.numLamps) : Fin Config.numLamps := i.rev

/-- The lamp register `STRIP[i]` (rule R13). -/
def State.lamp (s : State) (i : Fin Config.numLamps) : LampSetting := s.strip[i]

/-- `STRIP[i] <- v`, all three channels at once (rules R13, R47). -/
def State.setLampReg (s : State) (i : Fin Config.numLamps) (v : LampSetting) : State :=
  { s with strip := s.strip.set i v }

/-- `DSTATE <- m` (rule R13). -/
def State.setMode (s : State) (m : Mode) : State := { s with dstate := m }

/-- `OWN <- b` (rules R29, R154: no event). -/
def State.setOwn (s : State) (b : Bool) : State := { s with own := b }

/-- The level of a line becomes `l` (rules R28, R110). -/
def State.setLine (s : State) (line : Line) (l : LineLevel) : State :=
  match line with
  | .data => { s with dat := l }
  | .clk => { s with clk := l }

/-- Append an event to `TRACE` (rules R14, R33). -/
def State.emit (s : State) (e : Event) : State := { s with trace := s.trace ++ [e] }

/-- One more line write has been asked for (rule R34). -/
def State.countWrite (s : State) : State := { s with pinWrites := s.pinWrites + 1 }

/-- The collaborator's answer to write number `n` (rules R34, R110, U6). -/
def PinPlan.answer (p : PinPlan) (n : Nat) : PinAnswer :=
  if n < p.settled then
    match p.refusals.lookup n with
    | some e => .err e
    | none => .ok
  else Config.pinAnswer n

/-- `PinWrite(line, level)` (rule R110): every call performs its write. -/
def pinWrite (line : Line) (level : Bool) (s : State) : Run :=
  match s.pins.answer s.pinWrites with
  | .err e => .raised (.pinError e) (s.countWrite.setLine line .x)
  | .ok => .done ((s.countWrite.emit (.write line level)).setLine line (.driven level))

/-- `PinRelease()` (rule R155). -/
def pinRelease (s : State) : Run :=
  .done ((((s.emit .rel).setOwn false).setLine .data .x).setLine .clk .x)

/-- `Pause(d)` (rule R135). -/
def pause (d : Duration) (s : State) : Run := .done (s.emit (.pause d))

/-- `SetLamp(i, color, b)` (rule R94): the colour is checked first, then the index. -/
def setLamp (i : Int) (color : Color) (b : ℚ) (s : State) : Run :=
  match parseColor color with
  | none => .raised .invalidColorFormat s
  | some c =>
    match lampIndex i with
    | none => .raised .indexOutOfRange s
    | some j => .done (s.setLampReg j (lampValue c b))

/-- `SetOff(i)` (rule R97). -/
def setOff (i : Fin Config.numLamps) (s : State) : Run := .done (s.setLampReg i LampSetting.off)

/-- `SetAllOff()` (rule R97). -/
def setAllOff (s : State) : Run := forEach lamps setOff s

/-- `Gate(cmd)` (rule R151), before any operand is examined. -/
def gate (cmd : Opcode) (s : State) : Run :=
  match s.dstate with
  | .closed => .raised .postCloseUse s
  | .active => if cmd = .init then .raised .stateError s else .done s
  | .uninitialized => if cmd = .init then .done s else .raised .stateError s

/-- Write `STATUS` and send the response (rules R26, R69, R152). -/
def respond (st : Status) (s : State) : State :=
  { s with status := st, output := s.output ++ st.response }

/-- Fault entry (rule R169), the one operation by which a fault is taken: `STATUS <- F`, the response is sent, nothing is rolled
back, saved or written to a line, and the mode does not change. The model also keeps the fault in its own record (rule R171).
There is no return from a fault (rule R171). -/
def takeFault (f : CmdFault) (s : State) : State :=
  respond (.fault f) { s with faultLog := s.faultLog ++ [f] }

/-- The end of a command: `complete with Ok`, or with the fault it raised (rules R169, R171). -/
def complete (r : Run) : Host.Outcome State Fault Refusal :=
  match r with
  | .done s => .next (respond .ok s)
  | .raised f s => .next (takeFault f s)

/-- Reset (rules R32, R190): every piece of the block's state to its reset value, with no line written; what the host sent, what it
was answered and what the collaborator will answer are not the block's, and stay (log 5). `k` is the strike and
`later` are the strikes still to come. -/
def applyReset (s : State) (k : ResetStrike) (later : List ResetStrike) : State :=
  { State.reset with
    input := k.received
    resets := later
    output := s.output
    faultLog := s.faultLog
    pinWrites := s.pinWrites
    pins := s.pins }

end Sys2Proof.Machine
end

