-- ==== Sys2Proof/Machine/Color.lean ====
section
/-! DEFINITION. ColorState: `SET` (rule R95) and `SETALL` (rule R96). -/

namespace Sys2Proof.Machine

open Sys2Proof

/-- `SET led, color, brightness` (rule R95). -/
def execSet (led : Int) (color : Color) (b : Brightness) (s : State) : Host.Outcome State Fault Refusal :=
  complete ((gate .set s).andThen (setLamp led color b.val))

/-- `for i = 0 to 7: SetLamp(i, color, b)`, lamp by lamp and without rollback (rules R96, U4). -/
def setEveryLamp (color : Color) (b : ℚ) (s : State) : Run :=
  forEach lamps (fun i => setLamp (i.val : Int) color b) s

/-- `SETALL color, brightness` (rule R96). -/
def execSetall (color : Color) (b : Brightness) (s : State) : Host.Outcome State Fault Refusal :=
  complete ((gate .setall s).andThen (setEveryLamp color b.val))

end Sys2Proof.Machine
end

