-- ==== Sys2Proof/Machine/Encoder.lean ====
section
/-! DEFINITION. ProtocolEncoder: the frame serializer, built from one line write up (rules R111 to R117), and `SHOW`
(rule R120). -/

namespace Sys2Proof.Machine

open Sys2Proof

/-- `ClockPulse()` (rule R111). -/
def clockPulse (s : State) : Run := (pinWrite .clk true s).andThen (pinWrite .clk false)

/-- `SendBit(x)` (rule R112). -/
def sendBit (x : Bool) (s : State) : Run := (pinWrite .data x s).andThen clockPulse

/-- The bit positions of a byte in the order they are sent (rules R42, R113). -/
def msbFirst : List Nat := (List.range Config.channelBits).reverse

/-- `SendByte(v)` (rule R113). -/
def sendByte (v : Byte) (s : State) : Run := forEach msbFirst (fun p => sendBit (v.getLsbD p)) s

/-- `StartFrame()` (rule R114). -/
def startFrame (s : State) : Run :=
  (pinWrite .data false s).andThen (repeatTimes Config.startPulses clockPulse)

/-- `LampPacket(i)` (rule R115): marker, blue, green, red. -/
def lampPacket (i : Fin Config.numLamps) (s : State) : Run :=
  (sendByte Config.marker s).andThen fun s =>
    (sendByte (s.lamp i).blue s).andThen fun s =>
      (sendByte (s.lamp i).green s).andThen fun s => sendByte (s.lamp i).red s

/-- `EndFrame()` (rule R116). -/
def endFrame (s : State) : Run :=
  (pinWrite .data true s).andThen (repeatTimes Config.endPulses clockPulse)

/-- `WriteFrame()` (rule R117). -/
def writeFrame (s : State) : Run :=
  (startFrame s).andThen fun s => (forEach lamps lampPacket s).andThen endFrame

/-- `SHOW` (rule R120). -/
def execShow (s : State) : Host.Outcome State Fault Refusal :=
  complete ((gate .showFrame s).andThen writeFrame)

end Sys2Proof.Machine
end

