-- ==== Sys2Proof/Machine/Animation.lean ====
section
/-! DEFINITION. AnimationEngine: the scripted sequences (rules R137, R139, R141) and the commands `INIT` (rule R138), `FLASH`
(rule R140) and `CLOSE` (rule R146). -/

namespace Sys2Proof.Machine

open Sys2Proof

/-- `AnimPause()` (rule R147). -/
def animPause (s : State) : Run := pause Config.animPause s

/-- Lamp `i` and then lamp `7 - i` set to a colour at a brightness (rule R142). -/
def setPair (color : Color) (b : ℚ) (i : Fin Config.numLamps) (s : State) : Run :=
  (setLamp (i.val : Int) color b s).andThen (setLamp ((partner i).val : Int) color b)

/-- Lamp `i` and then lamp `7 - i` set off (rule R141). -/
def setPairOff (i : Fin Config.numLamps) (s : State) : Run := (setOff i s).andThen (setOff (partner i))

/-- `for k = 0 to 9` of a fade: the pair at the k-th ramp value, a frame, a pause (rules R137, R141). -/
def rampPair (color : Color) (ramp : Nat → ℚ) (i : Fin Config.numLamps) (s : State) : Run :=
  forEach (List.range Config.rampSteps)
    (fun k s => ((setPair color (ramp k) i s).andThen writeFrame).andThen animPause) s

/-- The pairs in the order the shutdown darkens them, `i = 0 to 3` (rule R141). -/
def shutdownPairs : List (Fin Config.numLamps) := lamps.take Config.pairs

/-- The pairs in the order the startup lights them, `i = 3 downto 0` (rule R137). -/
def startupPairs : List (Fin Config.numLamps) := shutdownPairs.reverse

/-- `Startup(color, b)` (rule R137). -/
def startup (color : Color) (b : ℚ) (s : State) : Run :=
  ((forEach startupPairs (fun i s =>
      ((rampPair color (rampUp b) i s).andThen (setPair color b i)).andThen writeFrame) s).andThen
    setAllOff).andThen writeFrame

/-- `INIT color, brightness` (rule R138). On a fault inside `Startup` the capability is given back without a release. -/
def execInit (color : Color) (b : Brightness) (s : State) : Host.Outcome State Fault Refusal :=
  complete ((gate .init s).andThen fun s =>
    (setAllOff (s.setOwn true)).andThen fun s =>
      ((startup color b.val s).onFault fun s => s.setOwn false).andThen fun s => .done (s.setMode .active))

/-- One repetition of `Flash` (rule R139). -/
def flashOnce (led : Int) (color : Color) (b : ℚ) (interval : Duration) (s : State) : Run :=
  (setLamp led color b s).andThen fun s => (writeFrame s).andThen fun s => (pause interval s).andThen fun s =>
    (match lampIndex led with
      | some i => setOff i s
      | none => .raised .indexOutOfRange s).andThen fun s =>
        (writeFrame s).andThen (pause interval)

/-- `FLASH led, color, brightness, times, interval` (rules R139, R140). -/
def execFlash (led : Int) (color : Color) (b : Brightness) (times : Nat) (interval : Duration) (s : State) :
    Host.Outcome State Fault Refusal :=
  complete ((gate .flash s).andThen (repeatTimes times (flashOnce led color b.val interval)))

/-- `Shutdown(color, b)` (rule R141). -/
def shutdown (color : Color) (b : ℚ) (s : State) : Run :=
  (((setEveryLamp color b s).andThen writeFrame).andThen fun s =>
    forEach shutdownPairs (fun i s =>
      ((rampPair color (rampDown b) i s).andThen (setPairOff i)).andThen writeFrame) s).andThen pinRelease

/-- `CLOSE color, brightness` (rule R146). On a fault the mode stays `Active` and nothing is released. -/
def execClose (color : Color) (b : Brightness) (s : State) : Host.Outcome State Fault Refusal :=
  complete ((gate .close s).andThen fun s =>
    (shutdown color b.val s).andThen fun s => .done (s.setMode .closed))

end Sys2Proof.Machine
end

