-- ==== Sys2Proof/Machine/Dispatch.lean ====
section
/-! DEFINITION. The dispatcher's choice of a command's body (rules R152, R157): one arm per command. -/

namespace Sys2Proof.Machine

open Sys2Proof

def exec (i : Instr) (s : State) : Host.Outcome State Fault Refusal :=
  match i with
  | .init color brightness => Sys2Proof.Machine.execInit color brightness s
  | .set led color brightness => Sys2Proof.Machine.execSet led color brightness s
  | .setall color brightness => Sys2Proof.Machine.execSetall color brightness s
  | .showFrame => Sys2Proof.Machine.execShow s
  | .flash led color brightness times interval => Sys2Proof.Machine.execFlash led color brightness times interval s
  | .close color brightness => Sys2Proof.Machine.execClose color brightness s

end Sys2Proof.Machine
end

