-- ==== Sys2Proof/WellFormed.lean ====
section
/-! DEFINITION. Which commands of the abstract set the command port can carry (rule R77): a check per operand field. A command
that fails one still has its meaning (rule R60); it only has no packet. The two fixed-point readings stand here because a
brightness or an interval is expressible exactly when some field value reads as it (rules R66, R68). -/

namespace Sys2Proof

/-- `b = B / 65536` (rule R66). -/
def Brightness.ofField (B : BitVec 32) : Brightness :=
  ⟨mkRat B.toNat 65536, Rat.mkRat_nonneg (Int.natCast_nonneg _) _⟩

/-- The field value that stands for `b`, where there is one: `B = 65536 * b` (rule R66). -/
def Brightness.toField (b : Brightness) : BitVec 32 := BitVec.ofInt 32 (b.val * 65536).floor

/-- `interval = I` microseconds (rule R68). -/
def Duration.ofField (I : BitVec 32) : Duration :=
  ⟨(I.toNat : ℚ), Nat.cast_nonneg _⟩

/-- The field value that stands for a duration, where there is one (rule R68). -/
def Duration.toField (d : Duration) : BitVec 32 := BitVec.ofInt 32 d.val.floor

/-- `LED` is one byte read as an unsigned integer 0..255 (rule R64). -/
def ledFits (led : Int) : Bool := decide (0 ≤ led ∧ led ≤ 255)

/-- `CLEN` is 0..255 (rule R65). -/
def colorFits (c : Color) : Bool := decide (c.length ≤ 255)

/-- A brightness that is some `B / 65536` (rule R66). -/
def brightnessFits (b : Brightness) : Bool := decide (Brightness.ofField (Brightness.toField b) = b)

/-- `TIMES` is 0..65535 (rule R67). -/
def timesFits (n : Nat) : Bool := decide (n < 65536)

/-- An interval of whole microseconds, 0..4294967295 (rule R68). -/
def intervalFits (d : Duration) : Bool := decide (Duration.ofField (Duration.toField d) = d)

/-- The command port can carry the command (rule R77). -/
def Instr.wellFormed : Instr → Bool
  | .init c b => colorFits c && brightnessFits b
  | .set l c b => ledFits l && colorFits c && brightnessFits b
  | .setall c b => colorFits c && brightnessFits b
  | .showFrame => true
  | .flash l c b n d => ledFits l && colorFits c && brightnessFits b && timesFits n && intervalFits d
  | .close c b => colorFits c && brightnessFits b

end Sys2Proof
end

