-- ==== Sys2Proof/Decode.lean ====
section
/-! DEFINITION. The command port's decoder and encoder (rules R61 to R72, R78): total on any bytes, a byte that selects no command
and a packet that is not all there each answered by name. The encoder is written from the same tables. -/

namespace Sys2Proof

/-- The opcode map (rule R63): all eight bits are compared. -/
def opcodeTable : List (Byte × Opcode) :=
  [(0x01, .init), (0x02, .set), (0x03, .setall), (0x04, .showFrame), (0x05, .flash), (0x06, .close)]

/-- The command an opcode byte selects, if any (rules R63, R70). -/
def opcodeOf (op : Byte) : Option Opcode := opcodeTable.lookup op

/-- The opcode byte of a command (rule R63). -/
def Opcode.byte : Opcode → Byte
  | .init => 0x01
  | .set => 0x02
  | .setall => 0x03
  | .showFrame => 0x04
  | .flash => 0x05
  | .close => 0x06

/-- What stands at the head of a byte stream (rules R70, R71, R72). -/
inductive Received where
  /-- A complete packet of one of the six commands, and the bytes after it. -/
  | packet (i : Instr) (rest : List Byte)
  /-- A byte that selects no command, and the bytes after it (rule R70). -/
  | illegal (op : Byte) (rest : List Byte)
  /-- Nothing, or the beginning of a packet (rule R72). -/
  | incomplete
  deriving DecidableEq, Repr

/-- The number a field's bytes stand for, most significant byte first (rule R45). -/
def beNat (bs : List Byte) : Nat := bs.foldl (fun n b => 256 * n + b.toNat) 0

/-- The first `n` bytes and the rest, if there are `n`. -/
def takeBytes : Nat → List Byte → Option (List Byte × List Byte)
  | 0, bs => some ([], bs)
  | _ + 1, [] => none
  | n + 1, b :: bs => (takeBytes n bs).map fun (field, rest) => (b :: field, rest)

/-- `CLEN` and `COLOR` (rule R65). -/
def takeColor : List Byte → Option (Color × List Byte)
  | [] => none
  | n :: bs => takeBytes n.toNat bs

/-- An unsigned field of `n` bytes, most significant first (rule R45). -/
def takeNat (n : Nat) (bs : List Byte) : Option (Nat × List Byte) :=
  match takeBytes n bs with
  | none => none
  | some (field, rest) => some (beNat field, rest)

/-- `CLEN`, `COLOR`, `BRIGHT` (rules R62, R66): the tail of format C and the middle of formats L and F. -/
def takeColorBright (bs : List Byte) : Option (Color × Brightness × List Byte) :=
  match takeColor bs with
  | none => none
  | some (c, bs) =>
    match takeNat 4 bs with
    | none => none
    | some (n, rest) => some (c, Brightness.ofField (BitVec.ofNat 32 n), rest)

/-- `LED`, then `CLEN`, `COLOR`, `BRIGHT`: the operands of format L and the beginning of format F (rules R62, R64). -/
def takeLamp : List Byte → Option (Int × Color × Brightness × List Byte)
  | [] => none
  | led :: bs =>
    match takeColorBright bs with
    | none => none
    | some (c, b, rest) => some ((led.toNat : Int), c, b, rest)

/-- `TIMES` and `INTERVAL`, the end of format F (rules R62, R67, R68). -/
def takeTimesInterval (bs : List Byte) : Option (Nat × Duration × List Byte) :=
  match takeNat 2 bs with
  | none => none
  | some (n, bs) =>
    match takeNat 4 bs with
    | none => none
    | some (d, rest) => some (n, Duration.ofField (BitVec.ofNat 32 d), rest)

/-- The operands of a command after its opcode byte, in the command's format (rules R62, R63). -/
def takeOperands (op : Opcode) (bs : List Byte) : Option (Instr × List Byte) :=
  match op with
  | .init => (takeColorBright bs).map fun (c, b, rest) => (.init c b, rest)
  | .set => (takeLamp bs).map fun (l, c, b, rest) => (.set l c b, rest)
  | .setall => (takeColorBright bs).map fun (c, b, rest) => (.setall c b, rest)
  | .showFrame => some (.showFrame, bs)
  | .flash =>
    match takeLamp bs with
    | none => none
    | some (l, c, b, bs) => (takeTimesInterval bs).map fun (n, d, rest) => (.flash l c b n d, rest)
  | .close => (takeColorBright bs).map fun (c, b, rest) => (.close c b, rest)

/-- Decode what stands at the head of the command stream (rules R70, R71, R72, R78). -/
def decode : List Byte → Received
  | [] => .incomplete
  | op :: bs =>
    match opcodeOf op with
    | none => .illegal op bs
    | some o =>
      match takeOperands o bs with
      | none => .incomplete
      | some (i, rest) => .packet i rest

/-- `n` bytes of a number, most significant first (rule R45). -/
def beBytes : Nat → Nat → List Byte
  | 0, _ => []
  | n + 1, v => BitVec.ofNat 8 (v / 256 ^ n) :: beBytes n v

/-- `CLEN` and `COLOR` (rule R65). -/
def putColor (c : Color) : List Byte := BitVec.ofNat 8 c.length :: c

/-- `BRIGHT` (rule R66). -/
def putBright (b : Brightness) : List Byte := beBytes 4 (Brightness.toField b).toNat

/-- `LED` (rule R64). -/
def putLed (led : Int) : List Byte := [BitVec.ofInt 8 led]

/-- The operand fields of a command in its format (rule R62). -/
def putOperands : Instr → List Byte
  | .init c b => putColor c ++ putBright b
  | .set l c b => putLed l ++ putColor c ++ putBright b
  | .setall c b => putColor c ++ putBright b
  | .showFrame => []
  | .flash l c b n d =>
    putLed l ++ putColor c ++ putBright b ++ beBytes 2 n ++ beBytes 4 (Duration.toField d).toNat
  | .close c b => putColor c ++ putBright b

/-- The packet of a command that the port can carry (rules R62, R63). -/
def encode (i : Instr) : List Byte := i.opcode.byte :: putOperands i

/-- The length of a command's packet, from its format and the colour's length alone (rule R71). -/
def Instr.packetLength : Instr → Nat
  | .init c _ => 6 + c.length
  | .set _ c _ => 7 + c.length
  | .setall c _ => 6 + c.length
  | .showFrame => 1
  | .flash _ c _ _ _ => 13 + c.length
  | .close c _ => 6 + c.length

/-- One item of a command stream: a command's packet or a byte that selects no command (rule R78). -/
inductive StreamItem where
  | packet (i : Instr)
  | illegal (op : Byte)
  deriving DecidableEq, Repr

/-- The bytes of a stream item (rules R62, R70). -/
def StreamItem.bytes : StreamItem → List Byte
  | .packet i => encode i
  | .illegal op => [op]

/-- An item that a stream can hold: a command the port can carry, or a byte that is no opcode (rules R70, R77). -/
def StreamItem.valid : StreamItem → Bool
  | .packet i => i.wellFormed
  | .illegal op => (opcodeOf op).isNone

/-- The bytes of an opcode-table word of `nbits` bits, the first byte in bits 7..0, and after them zeros up to the longest
packet, 13 + 255 bytes (rule R62). -/
def tableBytes (nbits w : Nat) : List Byte :=
  (List.range (nbits / 8)).map (fun k => BitVec.ofNat 8 (w / 256 ^ k)) ++ List.replicate 268 0

/-- The command the decoder reads from an opcode-table word. -/
def decodeTableWord (nbits w : Nat) : Option Instr :=
  match decode (tableBytes nbits w) with
  | .packet i _ => some i
  | .illegal _ _ => none
  | .incomplete => none

/-- The bytes of an opcode-table word that its one packet takes, none of the zeros after it. -/
def tablePacket (nbits w : Nat) : List Byte :=
  match decode (tableBytes nbits w) with
  | .packet i _ => (tableBytes nbits w).take i.packetLength
  | .illegal op _ => [op]
  | .incomplete => []

end Sys2Proof
end

