-- ==== Sys2Proof/Machine/Port.lean ====
section
/-! DEFINITION. The command port: taking a command from the stream, with or without a reset strike in it, what the block does with what
stands at the head of the stream when that is no complete packet (rules R70, R72, R190), and how a packet is put there. -/

namespace Sys2Proof.Machine

open Sys2Proof

/-- An undefined opcode byte is answered with `IllegalCommand`, in every mode (rules R70, R166). -/
def takeIllegal (s : State) : Host.Outcome State Fault Refusal := .next (takeFault .illegalCommand s)

/-- The strike that falls in the next command, if one does, and the strikes after it (rule R190). -/
def State.dueStrike (s : State) : Option (ResetStrike × List ResetStrike) :=
  match s.resets with
  | [] => none
  | k :: later => if k.commands = 0 then some (k, later) else none

/-- The strikes still to come once one more command is begun that none of them falls in. -/
def passCommand (ks : List ResetStrike) : List ResetStrike :=
  match ks with
  | [] => []
  | k :: later => { k with commands := k.commands - 1 } :: later

/-- The same strikes with one command more to come before them. -/
def expectCommand (ks : List ResetStrike) : List ResetStrike :=
  match ks with
  | [] => []
  | k :: later => { k with commands := k.commands + 1 } :: later

/-- The state in which a command is executed: it is consumed whole, and `rest` is what the host has sent after it (rule R61). -/
def State.take (s : State) (rest : List Byte) : State := { s with input := rest, resets := passCommand s.resets }

/-- A command that a strike abandons "where it stands" (rule R190): it has asked for `k.writes` line writes, or for all of its own if
they are fewer. What it did to the block's state is gone with the strike, and it is neither completed nor answered, but the
collaborator has answered those writes. `r` is what the command would have come to, which says how many writes it has. -/
def abandonCommand (k : ResetStrike) (later : List ResetStrike) (s : State) (r : Host.Outcome State Fault Refusal) :
    Host.Outcome State Fault Refusal :=
  match r with
  | .next t => .next (applyReset { s with pinWrites := s.pinWrites + min k.writes (t.pinWrites - s.pinWrites) } k later)
  | .fault f => .fault f
  | .refused f => .refused f

/-- Execute a command to completion (rule R61), or up to the strike that falls in it (rule R190). -/
def runCommand (run : State → Host.Outcome State Fault Refusal) (rest : List Byte) (s : State) :
    Host.Outcome State Fault Refusal :=
  match s.dueStrike with
  | some (k, later) => abandonCommand k later s (run (s.take rest))
  | none => run (s.take rest)

/-- No complete packet: the block waits, unchanged (rule R72), unless reset strikes; the strike abandons what was received of a packet
(rule R190). -/
def awaitInput (s : State) : State :=
  match s.resets with
  | [] => s
  | k :: later => applyReset s k later

/-- Put a command's bytes at the head of the command stream, ahead of the commands the strikes still to come are counted in. -/
def State.prependCommand (s : State) (bs : List Byte) : State :=
  { s with input := bs ++ s.input, resets := expectCommand s.resets }

end Sys2Proof.Machine
end

