-- ==== Sys2Proof/Machine/Step.lean ====
section
/-! DEFINITION. One step of the block (rules R61, R152): read what stands at the head of the command stream and run it to completion. -/

namespace Sys2Proof.Machine

open Sys2Proof

/-- One step: a complete packet is consumed whole and its command executed to completion, or abandoned by a reset strike; an undefined
opcode byte is consumed and answered, as a command is; otherwise the block waits or is reset. -/
def step (s : State) : Host.Outcome State Fault Refusal :=
  match decode s.input with
  | .packet i rest => runCommand (exec i) rest s
  | .illegal _ rest => runCommand takeIllegal rest s
  | .incomplete => .next (awaitInput s)

/-- The state with the packet of an opcode-table word at the head of its command stream, so that the next step runs exactly it
(log 32). -/
def State.withFetchWord (s : State) (nbits w : Nat) : State := s.prependCommand (tablePacket nbits w)

end Sys2Proof.Machine
end

