-- ==== Sys2Proof/Machine/Observe.lean ====
section
/-! DEFINITION. What is observed of the block, in closed form, for claims to be stated in: the frame as bits (rule R118) and as events
(rule R119), the sampled bits of a trace (rule R124), the pin trace (rule R33), the frames of the scripted sequences (rules R137,
R139, R141). None of it is used by the machine. -/

namespace Sys2Proof.Machine

open Sys2Proof

/-- The collaborator accepts the next `n` line writes (rule R192: the host's guarantee, where a claim needs it). -/
abbrev State.AcceptsNext (s : State) (n : Nat) : Prop := ∀ k < n, s.pins.answer (s.pinWrites + k) = .ok

/-- The collaborator accepts `n` line writes and refuses the one after them with the error `e` (rule R164). -/
abbrev State.RefusesAfter (s : State) (n : Nat) (e : PinErr) : Prop :=
  s.AcceptsNext n ∧ s.pins.answer (s.pinWrites + n) = .err e

/-- The character `ch` spells the hexadecimal digit of value `d` (rules R76, R91): both letter cases (log 14). -/
abbrev SpellsDigit (ch : Byte) (d : Nat) : Prop :=
  (d ≤ 9 ∧ ch.toNat = 0x30 + d) ∨ (10 ≤ d ∧ d ≤ 15 ∧ (ch.toNat = 0x41 + (d - 10) ∨ ch.toNat = 0x61 + (d - 10)))

/-- The events of sending one bit (rule R112). -/
def bitEvents (x : Bool) : List Event := [.write .data x, .write .clk true, .write .clk false]

/-- The events of sending one byte, bit 7 first (rules R42, R113). -/
def byteEvents (v : Byte) : List Event := [7, 6, 5, 4, 3, 2, 1, 0].flatMap fun p => bitEvents (v.getLsbD p)

/-- `byte(i, j)` of rule R118. -/
def frameByte (st : Strip) (i : Fin Config.numLamps) (j : Nat) : Byte :=
  match j with
  | 0 => Config.marker
  | 1 => st[i].blue
  | 2 => st[i].green
  | _ => st[i].red

/-- `f[q]` of rule R118, for `q` in 0..319. -/
def frameBit (st : Strip) (q : Nat) : Bool :=
  if q < Config.startPulses then false
  else if h : q < Config.startPulses + Config.numLamps * Config.packetBits then
    let n := q - Config.startPulses
    have nonempty : 0 < Config.packetBits * Config.numLamps := by decide
    let lamp : Fin Config.numLamps := ⟨n / Config.packetBits, Nat.div_lt_of_lt_mul (by rw [Nat.mul_comm] at h; omega)⟩
    (frameByte st lamp (n % Config.packetBits / Config.channelBits)).getLsbD (Config.channelBits - 1 - n % Config.channelBits)
  else true

/-- `FrameBits(STRIP)` (rule R118). -/
def frameBits (st : Strip) : List Bool := (List.range Config.framePulses).map (frameBit st)

/-- `e[n]` of rule R119, for `n` in 0..897, with that rule's own positions. -/
def frameEvent (st : Strip) (n : Nat) : Event :=
  if n = 0 then .write .data false
  else if n ≤ 64 then .write .clk (n % 2 == 1)
  else if n ≤ 832 then
    match (n - 65) % 3 with
    | 0 => .write .data (frameBit st (32 + (n - 65) / 3))
    | 1 => .write .clk true
    | _ => .write .clk false
  else if n = 833 then .write .data true
  else .write .clk ((n - 834) % 2 == 0)

/-- `FrameEvents(STRIP)` (rule R119). -/
def frameEvents (st : Strip) : List Event := (List.range Config.frameWrites).map (frameEvent st)

/-- The sampled-bit sequence of a trace (rule R124): the last level written to the data line, at every clock-high write. `last` is the
level of the data line before the trace begins. -/
def sampledBits (last : LineLevel) : List Event → List LineLevel
  | [] => []
  | .write .data level :: es => sampledBits (.driven level) es
  | .write .clk true :: es => last :: sampledBits last es
  | .write .clk false :: es => sampledBits last es
  | .rel :: es => sampledBits last es
  | .pause _ :: es => sampledBits last es

/-- A `W` event (rule R33). -/
def Event.isWrite : Event → Bool
  | .write _ _ => true
  | .rel => false
  | .pause _ => false

/-- A `P` event (rule R33). -/
def Event.isPause : Event → Bool
  | .write _ _ => false
  | .rel => false
  | .pause _ => true

/-- The pin trace: the trace with every `P` event erased (rule R33). -/
def pinTrace (es : List Event) : List Event := es.filter fun e => !e.isPause

/-- What a frame of a sequence carries (the last sentence of rule R137, and its mirror image for rule R141): the pair `i`, `7 - i` at one
value, the lamps between them at another, the lamps outside them off. -/
def sweepStrip (i : Fin Config.numLamps) (pair between : LampSetting) : Strip :=
  Vector.ofFn fun j =>
    if j = i ∨ j = partner i then pair
    else if i < j ∧ j < partner i then between
    else LampSetting.off

/-- The ten stepped frames of a pair, each followed by a pause (rules R137, R141, R147). -/
def rampEvents (c : Rgb) (b : ℚ) (ramp : Nat → ℚ) (i : Fin Config.numLamps) : List Event :=
  (List.range Config.rampSteps).flatMap fun k =>
    frameEvents (sweepStrip i (lampValue c (ramp k)) (lampValue c b)) ++ [.pause Config.animPause]

/-- What a completed `Startup` appends to the trace (rule R137): 45 frames and 40 pauses. -/
def startupEvents (c : Rgb) (b : ℚ) : List Event :=
  ([3, 2, 1, 0].flatMap fun i =>
    rampEvents c b (rampUp b) i ++ frameEvents (sweepStrip i (lampValue c b) (lampValue c b))) ++
  frameEvents Strip.off

/-- What a completed `Shutdown` appends to the trace (rule R141): 45 frames, 40 pauses and the release. -/
def shutdownEvents (c : Rgb) (b : ℚ) : List Event :=
  frameEvents (Vector.replicate Config.numLamps (lampValue c b)) ++
  ([0, 1, 2, 3].flatMap fun i =>
    rampEvents c b (rampDown b) i ++ frameEvents (sweepStrip i LampSetting.off (lampValue c b))) ++
  [.rel]

/-- What a completed `Flash` appends to the trace (rule R139): per repetition an on-frame, a pause, an off-frame, a pause. -/
def flashEvents (st : Strip) (i : Fin Config.numLamps) (on : LampSetting) (times : Nat) (d : Duration) : List Event :=
  (List.replicate times
    (frameEvents (st.set i on) ++ [.pause d] ++ frameEvents (st.set i LampSetting.off) ++ [.pause d])).flatten

end Sys2Proof.Machine
end

