-- ==== Sys2Proof/Safety.lean ====
section
/-! DEFINITION. What counts as a sound state and a clean run of the block: the invariants the spec states of every reachable state, and
the record of faults (rules R21, R29, R155, R156, R171, R178). -/

namespace Sys2Proof.Machine

open Sys2Proof

/-- A channel that is a table output (rule R21). -/
def IsGammaOutput (v : Byte) : Prop := ∃ u : Byte, v = Config.gamma.get u

/-- A lamp whose three channels are table outputs (rule R21). -/
def LampSetting.Corrected (l : LampSetting) : Prop :=
  IsGammaOutput l.red ∧ IsGammaOutput l.green ∧ IsGammaOutput l.blue

/-- The invariants of the block between commands. -/
structure State.Inv (s : State) : Prop where
  /-- "`OWN = 1` exactly when `DSTATE = Active`" (rule R29; no `INIT` is in progress between steps). -/
  owns : s.own = true ↔ s.dstate = .active
  /-- "always a GammaTable output", from `INIT` on (rule R21). -/
  corrected : s.dstate ≠ .uninitialized → ∀ i : Fin Config.numLamps, (s.lamp i).Corrected
  /-- One `REL` if and only if a `CLOSE` has completed (rule R156). -/
  releasedOnce : s.trace.count .rel = if s.dstate = .closed then 1 else 0
  /-- "no `W` event follows it": the release is the last event (rule R156). -/
  releaseLast : s.dstate = .closed → s.trace.getLast? = some .rel
  /-- After a completed `CLOSE` every lamp is off (rules R141, R178). -/
  closedDark : s.dstate = .closed → s.strip = Strip.off
  /-- The lines are released (rules R146, R155). -/
  closedLines : s.dstate = .closed → s.dat = .x ∧ s.clk = .x
  /-- A fault in `STATUS` is the last one of the model's record (rule R171). -/
  faultKept : ∀ f, s.status = .fault f → s.faultLog.getLast? = some f

/-- Commands one after another (rule R61: "only then reads the next packet"). -/
def execAll : List Instr → State → Host.Outcome State Fault Refusal
  | [], s => .next s
  | i :: is, s =>
    match exec i s with
    | .next t => execAll is t
    | .fault r => .fault r
    | .refused r => .refused r

/-- "No fault recorded" (rule R171): what a claim about a clean run asks, whatever came after a fault. -/
def State.Clean (s : State) : Prop := s.faultLog = []

/-- The identifier the collaborator knows a line by (rules R10, R49). -/
def Line.number : Line → Nat
  | .data => Config.lines.data
  | .clk => Config.lines.clk

end Sys2Proof.Machine
end

