-- ==== Sys2Proof/Certificates/Slice0/Obligations.lean ====
section
/-! DEFINITION. The statements of the model, from the numbered rules of the spec. `frameEvents`, `startupEvents`, `shutdownEvents`,
`flashEvents` are the spec's closed forms (Machine/Observe.lean), which the machine does not use. -/

open Sys2Proof Sys2Proof.Machine

/-! ### The table and the operands -/

/-- Rule R86. -/
def Obligations.GammaTableIsMonotone : Prop :=
  ∀ u v : Byte, u.toNat ≤ v.toNat → (correct u).toNat ≤ (correct v).toNat

/-- Rule R87: the one entry whose value is known. -/
def Obligations.GammaOfZeroIsZero : Prop :=
  correct 0 = 0 ∧ ∀ v : Byte, 0 ≤ (correct v).toNat

/-- Rules R92 and R102 (41_color_state.md sections 1 and 3) for a brightness in [0, 1]: round half up, no saturation, and the three corner
cases. -/
def Obligations.ScaleRoundsHalfUpInRange : Prop :=
  (∀ (raw : Byte) (b : ℚ), 0 ≤ b → b ≤ 1 →
    0 ≤ ⌊(raw.toNat : ℚ) * b + 1 / 2⌋ ∧ ⌊(raw.toNat : ℚ) * b + 1 / 2⌋ ≤ 255 ∧
      ((scale raw b).toNat : Int) = ⌊(raw.toNat : ℚ) * b + 1 / 2⌋) ∧
  (∀ raw : Byte, scale raw 0 = 0 ∧ scale raw 1 = raw) ∧ ∀ b : ℚ, scale 0 b = 0

/-- The integer form of `Scale` on a packet's brightness (41_color_state.md section 1; derived there), saturation included (the spec's
decision D10, log 13). -/
def Obligations.ScaleOfPacketBrightnessIsIntegerDivision : Prop :=
  ∀ (raw : Byte) (B : BitVec 32),
    (scale raw (Brightness.ofField B).val).toNat = min 255 ((2 * raw.toNat * B.toNat + 65536) / 131072)

/-- The integer form of `Scale` on a rising ramp value of a packet's brightness (43_animation_engine.md section 1; derived there). -/
def Obligations.RampOfPacketBrightnessIsIntegerDivision : Prop :=
  ∀ (raw : Byte) (B : BitVec 32) (k : Nat), k ≤ 9 →
    (scale raw (rampUp (Brightness.ofField B).val k)).toNat =
      min 255 ((2 * raw.toNat * k * B.toNat + 655360) / 1310720)

/-- 41_color_state.md section 3 (rule R100, derived there): the stored intensity is monotone in the raw value and in the brightness. -/
def Obligations.IntensityIsMonotone : Prop :=
  (∀ (raw raw' : Byte) (b : ℚ), 0 ≤ b → raw.toNat ≤ raw'.toNat →
    (correct (scale raw b)).toNat ≤ (correct (scale raw' b)).toNat) ∧
  ∀ (raw : Byte) (b b' : ℚ), b ≤ b' → (correct (scale raw b)).toNat ≤ (correct (scale raw b')).toNat

/-- 41_color_state.md section 1: a colour parses exactly if it is six hexadecimal digits, red first, high nibble first. That both letter cases are
digits is the spec's decision D18 (log 14). -/
def Obligations.ParseColorReadsSixHexDigits : Prop :=
  ∀ (c : Color) (rgb : Rgb), parseColor c = some rgb ↔
    ∃ c0 c1 c2 c3 c4 c5 : Byte, ∃ d0 d1 d2 d3 d4 d5 : Nat, c = [c0, c1, c2, c3, c4, c5] ∧
      SpellsDigit c0 d0 ∧ SpellsDigit c1 d1 ∧ SpellsDigit c2 d2 ∧ SpellsDigit c3 d3 ∧ SpellsDigit c4 d4 ∧ SpellsDigit c5 d5 ∧
      rgb.r.toNat = 16 * d0 + d1 ∧ rgb.g.toNat = 16 * d2 + d3 ∧ rgb.b.toNat = 16 * d4 + d5

/-! ### The line primitives and the frame -/

/-- 42_protocol_encoder.md section 1 (rule R111): two writes, high then low; the data line is not touched; if a write is refused the rest
is not attempted. That a refused write leaves `X` and no event is the spec's decision D27 (log 18). -/
def Obligations.ClockPulseIsHighThenLow : Prop :=
  (∀ s : State, s.AcceptsNext 2 → clockPulse s = .done { s with
    trace := s.trace ++ [.write .clk true, .write .clk false]
    clk := .driven false
    pinWrites := s.pinWrites + 2 }) ∧
  (∀ (s : State) (e : PinErr), s.RefusesAfter 0 e →
    clockPulse s = .raised (.pinError e) { s with clk := .x, pinWrites := s.pinWrites + 1 }) ∧
  ∀ (s : State) (e : PinErr), s.RefusesAfter 1 e → clockPulse s = .raised (.pinError e) { s with
    trace := s.trace ++ [.write .clk true]
    clk := .x
    pinWrites := s.pinWrites + 2 }

/-- Rule R112: a data write, made for every bit whatever the line's level, then a pulse. -/
def Obligations.SendBitWritesDataThenPulses : Prop :=
  ∀ (x : Bool) (s : State), s.AcceptsNext 3 → sendBit x s = .done { s with
    trace := s.trace ++ [.write .data x, .write .clk true, .write .clk false]
    dat := .driven x
    clk := .driven false
    pinWrites := s.pinWrites + 3 }

/-- Rule R113: bit 7 first, 24 events, 8 pulses; and the rule's example. -/
def Obligations.SendByteIsMsbFirst : Prop :=
  (∀ (v : Byte) (s : State), s.AcceptsNext 24 → sendByte v s = .done { s with
    trace := s.trace ++ [7, 6, 5, 4, 3, 2, 1, 0].flatMap fun p =>
      [.write .data (v.getLsbD p), .write .clk true, .write .clk false]
    dat := .driven (v.getLsbD 0)
    clk := .driven false
    pinWrites := s.pinWrites + 24 }) ∧
  (∀ v : Byte, (byteEvents v).length = 24 ∧ (byteEvents v).count (.write .clk true) = 8) ∧
  sampledBits .x (byteEvents 0xA5) = [true, false, true, false, false, true, false, true].map .driven

/-- Rule R115: the marker, then blue, green, red; 96 events, 32 pulses; and the rule's example. -/
def Obligations.LampPacketIsMarkerBlueGreenRed : Prop :=
  (∀ (i : Fin Config.numLamps) (s : State), s.AcceptsNext 96 → lampPacket i s = .done { s with
    trace := s.trace ++ [0xFF, (s.lamp i).blue, (s.lamp i).green, (s.lamp i).red].flatMap byteEvents
    dat := .driven ((s.lamp i).red.getLsbD 0)
    clk := .driven false
    pinWrites := s.pinWrites + 96 }) ∧
  (∀ l : LampSetting, ([0xFF, l.blue, l.green, l.red].flatMap byteEvents).length = 96 ∧
    ([0xFF, l.blue, l.green, l.red].flatMap byteEvents).count (.write .clk true) = 32) ∧
  ∀ (i : Fin Config.numLamps) (s : State), s.AcceptsNext 96 → s.lamp i = ⟨0x12, 0x34, 0x56⟩ →
    ∃ t, lampPacket i s = .done t ∧ t.trace = s.trace ++ ([0xFF, 0x56, 0x34, 0x12] : List Byte).flatMap byteEvents

/-- `SHOW` in `Active`, every write accepted, appends exactly the 898 events of 42_protocol_encoder.md section 3 and changes nothing else but the
lines and `STATUS`. The count of data writes in the framing parts rests on the spec's decision D24 (log 21). -/
def Obligations.ShowSendsTheFrame : Prop :=
  ∀ s : State, s.dstate = .active → s.AcceptsNext 898 → exec .showFrame s = .next { s with
    trace := s.trace ++ frameEvents s.strip
    dat := .driven true
    clk := .driven false
    pinWrites := s.pinWrites + 898
    status := .ok
    output := s.output ++ [0x00] }

/-- `SHOW` with a refused write (42_protocol_encoder.md sections 1 and 4): the events before it, `X` on the failing line, nothing after it, no repair.
`X` and no event at the refused write are the spec's decision D27 (log 18). -/
def Obligations.ShowStopsAtARefusedWrite : Prop :=
  ∀ (s : State) (n : Nat) (e : PinErr), s.dstate = .active → n < 898 → s.RefusesAfter n e →
    ∃ t, exec .showFrame s = .next t ∧ t.status = .fault (.pinError e) ∧
      t.output = s.output ++ [0x04, e.e0, e.e1, e.e2, e.e3] ∧
      t.trace = s.trace ++ (frameEvents s.strip).take n ∧
      t.pinWrites = s.pinWrites + n + 1 ∧
      (∀ l, (frameEvents s.strip)[n]? = some (.write .data l) → t.dat = .x) ∧
      (∀ l, (frameEvents s.strip)[n]? = some (.write .clk l) → t.clk = .x) ∧
      t.strip = s.strip ∧ t.dstate = s.dstate ∧ t.own = s.own

/-- 42_protocol_encoder.md section 3: what a frame's events sample to is the frame's 320 bits, whatever the data line was before. -/
def Obligations.FrameSamplesToFrameBits : Prop :=
  ∀ (st : Strip) (last : LineLevel), sampledBits last (frameEvents st) = (frameBits st).map .driven

/-- 42_protocol_encoder.md section 3: two different register files give two different frames, as bits and as events. -/
def Obligations.FrameDeterminesTheStrip : Prop :=
  (∀ a b : Strip, frameBits a = frameBits b → a = b) ∧ ∀ a b : Strip, frameEvents a = frameEvents b → a = b

/-- 42_protocol_encoder.md section 3: 258 writes of the data line, 640 of the clock line, half of them high. -/
def Obligations.FrameHas898WritesAnd320Pulses : Prop :=
  ∀ st : Strip, (frameEvents st).length = 898 ∧ (frameBits st).length = 320 ∧
    (frameEvents st).countP (fun e => match e with | .write .data _ => true | _ => false) = 258 ∧
    (frameEvents st).count (.write .clk true) = 320 ∧ (frameEvents st).count (.write .clk false) = 320

/-- Rule R122: a frame is a function of `STRIP` alone, it carries all eight lamps (its sampled bits are the 320 bits of the whole strip), and two `SHOW` commands in a row emit the same 898 events twice. -/
def Obligations.FrameIsAFunctionOfStripAlone : Prop :=
  (∀ s s' : State, s.dstate = .active → s'.dstate = .active → s.strip = s'.strip → s.AcceptsNext 898 → s'.AcceptsNext 898 →
    ∃ es t t', es.length = 898 ∧ sampledBits .x es = (frameBits s.strip).map .driven ∧ exec .showFrame s = .next t ∧
      exec .showFrame s' = .next t' ∧ t.trace = s.trace ++ es ∧ t'.trace = s'.trace ++ es) ∧
  ∀ s : State, s.dstate = .active → s.AcceptsNext 1796 →
    ∃ es t, es.length = 898 ∧ sampledBits .x es = (frameBits s.strip).map .driven ∧
      execAll [.showFrame, .showFrame] s = .next t ∧ t.trace = s.trace ++ es ++ es

/-! ### SET and SETALL -/

/-- `SET` with a valid index and colour in `Active` (41_color_state.md section 2) stores the gamma-corrected, scaled, saturated channels in that lamp
register and changes nothing else but `STATUS`. Saturation outside [0, 1] is the spec's decision D10 (log 13). -/
def Obligations.SetStoresTheScaledColour : Prop :=
  ∀ (i : Fin Config.numLamps) (c : Color) (b : Brightness) (rgb : Rgb) (s : State), s.dstate = .active →
    parseColor c = some rgb → exec (.set i.val c b) s = .next { s with
      strip := s.strip.set i
        ⟨correct (BitVec.ofInt 8 (min 255 (max 0 ⌊(rgb.r.toNat : ℚ) * b.val + 1 / 2⌋))),
          correct (BitVec.ofInt 8 (min 255 (max 0 ⌊(rgb.g.toNat : ℚ) * b.val + 1 / 2⌋))),
          correct (BitVec.ofInt 8 (min 255 (max 0 ⌊(rgb.b.toNat : ℚ) * b.val + 1 / 2⌋)))⟩
      status := .ok
      output := s.output ++ [0x00] }

/-- The two operand faults of `SET` (60_exceptions.md sections 1 and 3): the colour first, then the index, and nothing but `STATUS` changes (and the
model's record of faults, log 23). The order is the spec's decision D19 (log 17). -/
def Obligations.SetFaultsOnColourThenIndex : Prop :=
  (∀ (led : Int) (c : Color) (b : Brightness) (s : State), s.dstate = .active → parseColor c = none →
    exec (.set led c b) s = .next { s with
      status := .fault .invalidColorFormat
      output := s.output ++ [0x01]
      faultLog := s.faultLog ++ [.invalidColorFormat] }) ∧
  ∀ (led : Int) (c : Color) (b : Brightness) (rgb : Rgb) (s : State), s.dstate = .active → parseColor c = some rgb →
    led < 0 ∨ 7 < led → exec (.set led c b) s = .next { s with
      status := .fault .indexOutOfRange
      output := s.output ++ [0x02]
      faultLog := s.faultLog ++ [.indexOutOfRange] }

/-- Rule R98, the range law: in `Active`, with an index in 0..7, six hexadecimal digits and a brightness in [0, 1], `SET` completes with `Ok` and each
channel is the table entry at `floor(raw*b + 1/2)`, an index in 0..255. -/
def Obligations.SetNeverRaisesInTheGuaranteedRange : Prop :=
  ∀ (i : Fin Config.numLamps) (c : Color) (b : Brightness) (rgb : Rgb) (s : State), s.dstate = .active →
    parseColor c = some rgb → b.val ≤ 1 →
    ∃ t, exec (.set i.val c b) s = .next t ∧ t.status = .ok ∧
      ∀ p ∈ [(rgb.r, (t.lamp i).red), (rgb.g, (t.lamp i).green), (rgb.b, (t.lamp i).blue)],
        0 ≤ ⌊(p.1.toNat : ℚ) * b.val + 1 / 2⌋ ∧ ⌊(p.1.toNat : ℚ) * b.val + 1 / 2⌋ ≤ 255 ∧
          p.2 = Config.gamma.get (BitVec.ofInt 8 ⌊(p.1.toNat : ℚ) * b.val + 1 / 2⌋)

/-- `SETALL` (41_color_state.md section 2): all eight registers get the one value, or, with a colour that does not parse, none does. -/
def Obligations.SetallWritesAllOrNothing : Prop :=
  (∀ (c : Color) (b : Brightness) (rgb : Rgb) (s : State), s.dstate = .active → parseColor c = some rgb →
    exec (.setall c b) s = .next { s with
      strip := Vector.replicate Config.numLamps (lampValue rgb b.val)
      status := .ok
      output := s.output ++ [0x00] }) ∧
  ∀ (c : Color) (b : Brightness) (s : State), s.dstate = .active → parseColor c = none →
    exec (.setall c b) s = .next { s with
      status := .fault .invalidColorFormat
      output := s.output ++ [0x01]
      faultLog := s.faultLog ++ [.invalidColorFormat] }

/-- The equivalence law (rule R99, 41_color_state.md section 3): `SETALL` and eight `SET` commands end with the same `STRIP` and the same status; with a bad colour both fail
with `InvalidColorFormat` and leave `STRIP` unchanged. That the eight fail each and the one once is said in the model's own record of
faults (log 23). -/
def Obligations.SetallEqualsEightSets : Prop :=
  ∀ (c : Color) (b : Brightness) (s : State), s.dstate = .active →
    ∃ t u, exec (.setall c b) s = .next t ∧
      execAll [.set 0 c b, .set 1 c b, .set 2 c b, .set 3 c b, .set 4 c b, .set 5 c b, .set 6 c b, .set 7 c b] s = .next u ∧
      t.strip = u.strip ∧ t.status = u.status ∧
      (parseColor c = none → t.status = .fault .invalidColorFormat ∧ t.strip = s.strip ∧
        u.faultLog = s.faultLog ++ List.replicate 8 .invalidColorFormat ∧ t.faultLog = s.faultLog ++ [.invalidColorFormat])

/-- Rule R101: `SET` and `SETALL` produce no output, in every mode and with every operand. -/
def Obligations.SetAndSetallProduceNoOutput : Prop :=
  ∀ (i : Instr) (s t : State), i.opcode = .set ∨ i.opcode = .setall → exec i s = .next t →
    t.trace = s.trace ∧ t.dat = s.dat ∧ t.clk = s.clk ∧ t.pinWrites = s.pinWrites

/-- 20_memory.md section 4: `SET` twice with the same operands leaves the strip as once. -/
def Obligations.SetIsIdempotentOnTheStrip : Prop :=
  ∀ (led : Int) (c : Color) (b : Brightness) (s : State),
    ∃ t u, exec (.set led c b) s = .next t ∧ execAll [.set led c b, .set led c b] s = .next u ∧
      u.strip = t.strip ∧ u.status = t.status

/-- 70_reset_and_hazards.md section 3: `SET` commands to different lamps may come in either order; of two to the same lamp the later wins. -/
def Obligations.SetsToDifferentLampsCommute : Prop :=
  (∀ (led led' : Int) (c c' : Color) (b b' : Brightness) (s : State), led ≠ led' →
    ∃ t u, execAll [.set led c b, .set led' c' b'] s = .next t ∧ execAll [.set led' c' b', .set led c b] s = .next u ∧
      t.strip = u.strip) ∧
  ∀ (i : Fin Config.numLamps) (c c' : Color) (b b' : Brightness) (rgb : Rgb) (s : State), s.dstate = .active →
    parseColor c' = some rgb → ∃ t, execAll [.set i.val c b, .set i.val c' b'] s = .next t ∧ t.lamp i = lampValue rgb b'.val

/-- 20_memory.md section 10 and 70_reset_and_hazards.md section 3: a `SET` reaches the lines with the next frame, and not before. -/
def Obligations.SetIsPublishedByTheNextShow : Prop :=
  ∀ (i : Fin Config.numLamps) (c : Color) (b : Brightness) (rgb : Rgb) (s : State), s.dstate = .active →
    parseColor c = some rgb → s.AcceptsNext 898 →
    ∃ t, execAll [.set i.val c b, .showFrame] s = .next t ∧
      t.trace = s.trace ++ frameEvents (s.strip.set i (lampValue rgb b.val))

/-- The frame of `SET` and `SETALL` on every path: what they leave unchanged (10_state.md section 1, 41_color_state.md section 2). -/
def Obligations.SetAndSetallFrame : Prop :=
  (∀ (led : Int) (c : Color) (b : Brightness) (s t : State), exec (.set led c b) s = .next t →
    (∀ j : Fin Config.numLamps, (j.val : Int) ≠ led → t.lamp j = s.lamp j) ∧
    t.dstate = s.dstate ∧ t.own = s.own ∧ t.dat = s.dat ∧ t.clk = s.clk ∧ t.trace = s.trace ∧ t.input = s.input ∧
    t.resets = s.resets ∧ t.pinWrites = s.pinWrites ∧ t.pins = s.pins) ∧
  ∀ (c : Color) (b : Brightness) (s t : State), exec (.setall c b) s = .next t →
    t.dstate = s.dstate ∧ t.own = s.own ∧ t.dat = s.dat ∧ t.clk = s.clk ∧ t.trace = s.trace ∧ t.input = s.input ∧
    t.resets = s.resets ∧ t.pinWrites = s.pinWrites ∧ t.pins = s.pins

/-! ### INIT -/

/-- `INIT` in `Uninitialized` with a valid colour and every write accepted (43_animation_engine.md section 2): the 45 frames and 40 pauses of the startup,
then `Active`, all lamps off. Ramp values and pause places are the spec's decisions D22, D23 (logs 8, 20). -/
def Obligations.InitRunsStartupAndEntersActive : Prop :=
  ∀ (c : Color) (b : Brightness) (rgb : Rgb) (s : State), s.dstate = .uninitialized → parseColor c = some rgb →
    s.AcceptsNext 40410 → exec (.init c b) s = .next { s with
      strip := Strip.off
      dstate := .active
      own := true
      dat := .driven true
      clk := .driven false
      trace := s.trace ++ startupEvents rgb b.val
      pinWrites := s.pinWrites + 40410
      status := .ok
      output := s.output ++ [0x00] }

/-- `INIT` with a colour that does not parse (43_animation_engine.md section 2): no output, `Uninitialized`, `OWN` back to 0 (the spec's decision D15,
log 19). -/
def Obligations.InitWithABadColourStaysUninitialized : Prop :=
  ∀ (c : Color) (b : Brightness) (s : State), s.dstate = .uninitialized → parseColor c = none →
    exec (.init c b) s = .next { s with
      strip := Strip.off
      own := false
      status := .fault .invalidColorFormat
      output := s.output ++ [0x01]
      faultLog := s.faultLog ++ [.invalidColorFormat] }

/-- `INIT` with a refused write (43_animation_engine.md sections 2 and 5): the line writes before it and no more, `Uninitialized`, `OWN` 0, no `REL` (the
spec's decision D15, log 19). -/
def Obligations.InitStopsAtARefusedWrite : Prop :=
  ∀ (c : Color) (b : Brightness) (rgb : Rgb) (s : State) (n : Nat) (e : PinErr), s.dstate = .uninitialized →
    parseColor c = some rgb → n < 40410 → s.RefusesAfter n e →
    ∃ t es, exec (.init c b) s = .next t ∧ t.status = .fault (.pinError e) ∧
      t.output = s.output ++ [0x04, e.e0, e.e1, e.e2, e.e3] ∧ t.dstate = .uninitialized ∧ t.own = false ∧
      t.trace = s.trace ++ es ∧ pinTrace es = (pinTrace (startupEvents rgb b.val)).take n ∧ es.count .rel = 0 ∧
      t.pinWrites = s.pinWrites + n + 1

/-! ### FLASH -/

/-- `FLASH` in `Active` with a valid index and colour and every write accepted (43_animation_engine.md section 3): `times` times on-frame, pause, off-frame,
pause; afterwards the lamp is off and the others are untouched. Four pauses for two repetitions: 90_conflicts.md C2 (log 34). -/
def Obligations.FlashSendsOnAndOffFrames : Prop :=
  ∀ (i : Fin Config.numLamps) (c : Color) (b : Brightness) (n : Nat) (d : Duration) (rgb : Rgb) (s : State),
    s.dstate = .active → parseColor c = some rgb → s.AcceptsNext (1796 * n) → exec (.flash i.val c b n d) s = .next { s with
      strip := if n = 0 then s.strip else s.strip.set i LampSetting.off
      dat := if n = 0 then s.dat else .driven true
      clk := if n = 0 then s.clk else .driven false
      trace := s.trace ++ flashEvents s.strip i (lampValue rgb b.val) n d
      pinWrites := s.pinWrites + 1796 * n
      status := .ok
      output := s.output ++ [0x00] }

/-- `FLASH` with `times = 0` validates nothing and does nothing (43_animation_engine.md section 3; the spec's decision D29, log 27); with `times >= 1` its
operands are checked before any output, the colour first. -/
def Obligations.FlashValidatesOnlyWhenItRuns : Prop :=
  (∀ (led : Int) (c : Color) (b : Brightness) (d : Duration) (s : State), s.dstate = .active →
    exec (.flash led c b 0 d) s = .next { s with status := .ok, output := s.output ++ [0x00] }) ∧
  (∀ (led : Int) (c : Color) (b : Brightness) (n : Nat) (d : Duration) (s : State), s.dstate = .active → 1 ≤ n →
    parseColor c = none → exec (.flash led c b n d) s = .next { s with
      status := .fault .invalidColorFormat
      output := s.output ++ [0x01]
      faultLog := s.faultLog ++ [.invalidColorFormat] }) ∧
  ∀ (led : Int) (c : Color) (b : Brightness) (n : Nat) (d : Duration) (rgb : Rgb) (s : State), s.dstate = .active → 1 ≤ n →
    parseColor c = some rgb → led < 0 ∨ 7 < led → exec (.flash led c b n d) s = .next { s with
      status := .fault .indexOutOfRange
      output := s.output ++ [0x02]
      faultLog := s.faultLog ++ [.indexOutOfRange] }

/-- `FLASH` with a refused write (43_animation_engine.md sections 3 and 5): the line writes before it and no more; the lamp holds its on-value or its off-value, the
other lamps are untouched, the mode and the ownership stay. -/
def Obligations.FlashStopsAtARefusedWrite : Prop :=
  ∀ (i : Fin Config.numLamps) (c : Color) (b : Brightness) (n : Nat) (d : Duration) (rgb : Rgb) (s : State) (k : Nat) (e : PinErr),
    s.dstate = .active → parseColor c = some rgb → k < 1796 * n → s.RefusesAfter k e →
    ∃ t es, exec (.flash i.val c b n d) s = .next t ∧ t.status = .fault (.pinError e) ∧
      t.output = s.output ++ [0x04, e.e0, e.e1, e.e2, e.e3] ∧ t.trace = s.trace ++ es ∧
      pinTrace es = (pinTrace (flashEvents s.strip i (lampValue rgb b.val) n d)).take k ∧
      (t.strip = s.strip.set i (lampValue rgb b.val) ∨ t.strip = s.strip.set i LampSetting.off) ∧
      t.dstate = s.dstate ∧ t.own = s.own ∧ t.pinWrites = s.pinWrites + k + 1

/-! ### CLOSE -/

/-- `CLOSE` in `Active` with a valid colour and every write accepted (43_animation_engine.md section 4): the 45 frames and 40 pauses of the shutdown, one `REL`,
then `Closed`, all lamps off, the lines released. Ramp values and pause places are the spec's decisions D22, D23 (logs 8, 20). -/
def Obligations.CloseRunsShutdownAndReleases : Prop :=
  ∀ (c : Color) (b : Brightness) (rgb : Rgb) (s : State), s.dstate = .active → parseColor c = some rgb →
    s.AcceptsNext 40410 → exec (.close c b) s = .next { s with
      strip := Strip.off
      dstate := .closed
      own := false
      dat := .x
      clk := .x
      trace := s.trace ++ shutdownEvents rgb b.val
      pinWrites := s.pinWrites + 40410
      status := .ok
      output := s.output ++ [0x00] }

/-- `CLOSE` that faults (43_animation_engine.md section 4): with a bad colour nothing changes; with a refused write the line writes before it and no more, no
`REL`, still `Active` and owning (the spec's decision D26, log 19). -/
def Obligations.CloseThatFaultsStaysActive : Prop :=
  (∀ (c : Color) (b : Brightness) (s : State), s.dstate = .active → parseColor c = none →
    exec (.close c b) s = .next { s with
      status := .fault .invalidColorFormat
      output := s.output ++ [0x01]
      faultLog := s.faultLog ++ [.invalidColorFormat] }) ∧
  ∀ (c : Color) (b : Brightness) (rgb : Rgb) (s : State) (n : Nat) (e : PinErr), s.dstate = .active →
    parseColor c = some rgb → n < 40410 → s.RefusesAfter n e →
    ∃ t es, exec (.close c b) s = .next t ∧ t.status = .fault (.pinError e) ∧
      t.output = s.output ++ [0x04, e.e0, e.e1, e.e2, e.e3] ∧ t.dstate = .active ∧ t.own = s.own ∧
      t.trace = s.trace ++ es ∧ pinTrace es = (pinTrace (shutdownEvents rgb b.val)).take n ∧ es.count .rel = 0 ∧
      t.pinWrites = s.pinWrites + n + 1

/-- The source's property 6 (95_test_vectors.md S7), for every valid colour and brightness: construct, then close, ends with every lamp at `GAMMA[0] = 0` and
the release invoked exactly once, last. -/
def Obligations.InitThenCloseEndsDarkAndReleasedOnce : Prop :=
  ∀ (c c' : Color) (b b' : Brightness) (rgb rgb' : Rgb) (s : State), s.dstate = .uninitialized → parseColor c = some rgb →
    parseColor c' = some rgb' → s.AcceptsNext 80820 →
    ∃ t es, execAll [.init c b, .close c' b'] s = .next t ∧ t.dstate = .closed ∧ t.status = .ok ∧ t.own = false ∧
      (∀ i : Fin Config.numLamps, t.lamp i = ⟨correct 0, correct 0, correct 0⟩) ∧
      t.trace = s.trace ++ es ∧ es.countP Event.isWrite = 80820 ∧ es.count .rel = 1 ∧ es.getLast? = some .rel

/-! ### The mode gate and what holds of every command -/

/-- The gate's refusals (44_driver_facade.md section 1): nothing changes but `STATUS` (and the model's record, log 23), whatever the operands. Refusing in `Uninitialized`
and a second `INIT` is the spec's decision D20 (log 16), the behaviour after close its decision D21 (log 15). -/
def Obligations.GateRefusesOutsideTheMode : Prop :=
  (∀ (i : Instr) (s : State), s.dstate = .closed → exec i s = .next { s with
    status := .fault .postCloseUse
    output := s.output ++ [0x03]
    faultLog := s.faultLog ++ [.postCloseUse] }) ∧
  (∀ (i : Instr) (s : State), s.dstate = .active → i.opcode = .init → exec i s = .next { s with
    status := .fault .stateError
    output := s.output ++ [0x05]
    faultLog := s.faultLog ++ [.stateError] }) ∧
  ∀ (i : Instr) (s : State), s.dstate = .uninitialized → i.opcode ≠ .init → exec i s = .next { s with
    status := .fault .stateError
    output := s.output ++ [0x05]
    faultLog := s.faultLog ++ [.stateError] }

/-- The mode moves along one path only (rule R150, 44_driver_facade.md section 1). A completed `INIT` enters `Active`, a completed `CLOSE` enters `Closed`, nothing else moves it, no fault does,
and only a reset strike leaves `Closed`. That strikes are the list `resets` is the model's (log 4). -/
def Obligations.ModeMovesForwardOnly : Prop :=
  (∀ (i : Instr) (s t : State), exec i s = .next t → t.dstate ≠ s.dstate →
    (s.dstate = .uninitialized ∧ t.dstate = .active ∧ i.opcode = .init ∧ t.status = .ok) ∨
    (s.dstate = .active ∧ t.dstate = .closed ∧ i.opcode = .close ∧ t.status = .ok)) ∧
  (∀ (i : Instr) (s t : State), exec i s = .next t → t.status = .ok →
    (i.opcode = .init → t.dstate = .active) ∧ (i.opcode = .close → t.dstate = .closed)) ∧
  ∀ s t : State, step s = .next t → s.dstate = .closed → t.dstate ≠ .closed →
    ∃ k, s.resets = k :: t.resets ∧ t.input = k.received ∧ t.dstate = .uninitialized ∧ t.trace = []

/-- Every command in every state completes with one status, and the response is that status (10_state.md section 4, 60_exceptions.md section 4); a fault is added to the
model's record (log 23), which is otherwise unchanged. -/
def Obligations.EveryCommandCompletesWithAStatus : Prop :=
  ∀ (i : Instr) (s : State), ∃ t, exec i s = .next t ∧ t.output = s.output ++ t.status.response ∧
    (t.status = .ok ∧ t.faultLog = s.faultLog ∨ ∃ f, t.status = .fault f ∧ t.faultLog = s.faultLog ++ [f])

/-- What every command leaves alone, and that it only appends to the trace, one line write asked for per `W` event and one more for a refused write (10_state.md section 7,
20_memory.md section 7). -/
def Obligations.CommandsOnlyAppendToTheTrace : Prop :=
  ∀ (i : Instr) (s t : State), exec i s = .next t → t.input = s.input ∧ t.resets = s.resets ∧ t.pins = s.pins ∧
    ∃ es, t.trace = s.trace ++ es ∧ t.pinWrites = s.pinWrites + es.countP Event.isWrite +
      (match t.status with | .fault (.pinError _) => 1 | _ => 0)

/-- The frame of `SHOW` and `FLASH` on every path (42_protocol_encoder.md section 5, 43_animation_engine.md section 3): what they leave unchanged. -/
def Obligations.ShowAndFlashFrame : Prop :=
  (∀ s t : State, exec .showFrame s = .next t →
    t.strip = s.strip ∧ t.dstate = s.dstate ∧ t.own = s.own ∧ t.input = s.input ∧ t.resets = s.resets ∧ t.pins = s.pins) ∧
  ∀ (led : Int) (c : Color) (b : Brightness) (n : Nat) (d : Duration) (s t : State), exec (.flash led c b n d) s = .next t →
    (∀ j : Fin Config.numLamps, (j.val : Int) ≠ led → t.lamp j = s.lamp j) ∧ t.dstate = s.dstate ∧ t.own = s.own ∧
    t.input = s.input ∧ t.resets = s.resets ∧ t.pins = s.pins

/-- The frame of `INIT` and `CLOSE` on every path (43_animation_engine.md sections 2 and 4): what they leave unchanged, and the ownership they leave. -/
def Obligations.InitAndCloseFrame : Prop :=
  (∀ (c : Color) (b : Brightness) (s t : State), exec (.init c b) s = .next t →
    t.input = s.input ∧ t.resets = s.resets ∧ t.pins = s.pins ∧
    (s.dstate ≠ .uninitialized → t.strip = s.strip ∧ t.own = s.own ∧ t.dat = s.dat ∧ t.clk = s.clk ∧ t.trace = s.trace) ∧
    (s.dstate = .uninitialized → (t.own = true ↔ t.status = .ok))) ∧
  ∀ (c : Color) (b : Brightness) (s t : State), exec (.close c b) s = .next t →
    t.input = s.input ∧ t.resets = s.resets ∧ t.pins = s.pins ∧
    (s.dstate ≠ .active → t.strip = s.strip ∧ t.own = s.own ∧ t.dat = s.dat ∧ t.clk = s.clk ∧ t.trace = s.trace) ∧
    (s.dstate = .active → (t.status = .ok → t.own = false) ∧ (t.status ≠ .ok → t.own = s.own))

/-- 44_driver_facade.md section 2: no line is written and none released but by a command that passed the gate, that is in `Active`, or by `INIT` in `Uninitialized`. -/
def Obligations.OnlyThreeCommandsInActiveAndInitTouchTheLines : Prop :=
  ∀ (i : Instr) (s t : State), exec i s = .next t → t.trace ≠ s.trace ∨ t.pinWrites ≠ s.pinWrites →
    (s.dstate = .active ∧ i.opcode ≠ .init ∧ i.opcode ≠ .set ∧ i.opcode ≠ .setall) ∨
    (s.dstate = .uninitialized ∧ i.opcode = .init)

/-- 43_animation_engine.md section 5: the counts of every command that completes with `Ok`. -/
def Obligations.CompletedCommandsHaveTheirCounts : Prop :=
  ∀ (i : Instr) (s t : State), exec i s = .next t → t.status = .ok →
    ∃ es, t.trace = s.trace ++ es ∧ (es.countP Event.isWrite, es.countP Event.isPause, es.count .rel) =
      match i with
      | .init _ _ => (40410, 40, 0)
      | .set _ _ _ => (0, 0, 0)
      | .setall _ _ => (0, 0, 0)
      | .showFrame => (898, 0, 0)
      | .flash _ _ _ n _ => (1796 * n, 2 * n, 0)
      | .close _ _ => (40410, 40, 1)

/-- 60_exceptions.md sections 1 and 4: a colour or index fault comes before any store and any output; the one store before it is `INIT`'s all-off. -/
def Obligations.OperandFaultsLeaveNothingBehind : Prop :=
  ∀ (i : Instr) (s t : State), exec i s = .next t →
    t.status = .fault .invalidColorFormat ∨ t.status = .fault .indexOutOfRange →
    t.trace = s.trace ∧ t.dat = s.dat ∧ t.clk = s.clk ∧ t.pinWrites = s.pinWrites ∧ t.dstate = s.dstate ∧
      (i.opcode ≠ .init → t.strip = s.strip ∧ t.own = s.own)

/-- 60_exceptions.md sections 1 and 3: `PinError` carries the collaborator's own error, for the last write asked for, all writes before it accepted (no retry and no suppression); a command
without `PinError` had every write accepted. -/
def Obligations.PinErrorIsTheCollaboratorsRefusal : Prop :=
  ∀ (i : Instr) (s t : State), exec i s = .next t →
    (∀ e, t.status = .fault (.pinError e) → ∃ n, t.pinWrites = s.pinWrites + n + 1 ∧ s.RefusesAfter n e) ∧
    ((∀ e, t.status ≠ .fault (.pinError e)) → ∃ n, t.pinWrites = s.pinWrites + n ∧ s.AcceptsNext n)

/-! ### Decoding and encoding -/

/-- 30_encoding.md section 6: the decoder gives back every command the port can carry, with every operand, whatever follows the packet. -/
def Obligations.DecodeOfEncodeIsTheCommand : Prop :=
  ∀ (i : Instr) (rest : List Byte), i.wellFormed = true → decode (encode i ++ rest) = .packet i rest

/-- 30_encoding.md section 6: what the decoder takes for a packet is the encoding of a command the port can carry. -/
def Obligations.EncodeOfDecodeIsTheBytes : Prop :=
  ∀ (bs : List Byte) (i : Instr) (rest : List Byte), decode bs = .packet i rest → i.wellFormed = true ∧ bs = encode i ++ rest

/-- 30_encoding.md section 6: every byte sequence is, uniquely, packets and undefined bytes and at most one incomplete packet. -/
def Obligations.EveryStreamSplitsUniquely : Prop :=
  ∀ bs : List Byte, ∃! p : List StreamItem × List Byte,
    (∀ x ∈ p.1, x.valid = true) ∧ decode p.2 = .incomplete ∧ bs = p.1.flatMap StreamItem.bytes ++ p.2

/-- 30_encoding.md section 6: a packet's length is found from its first bytes alone, `CLEN` at offset 1 or 2, whatever the operands are worth. -/
def Obligations.PacketLengthFromTheFirstBytes : Prop :=
  ∀ (op : Byte) (o : Opcode) (bs : List Byte), opcodeOf op = some o →
    let need : Option Nat := match o with
      | .showFrame => some 1
      | .init | .setall | .close => bs.head?.map fun n => 6 + n.toNat
      | .set => bs.tail.head?.map fun n => 7 + n.toNat
      | .flash => bs.tail.head?.map fun n => 13 + n.toNat
    (decode (op :: bs) = .incomplete ↔ ∀ n, need = some n → (op :: bs).length < n) ∧
    ∀ i rest, decode (op :: bs) = .packet i rest → ∃ n, need = some n ∧ rest = (op :: bs).drop n

/-- A few words written out from 30_encoding.md sections 2 to 4 and 95_test_vectors.md. -/
def Obligations.WrittenOutPacketsDecode : Prop :=
  decode [0x04] = .packet .showFrame [] ∧
  decode [0x02, 0x00, 0x03, 0x46, 0x46, 0x46, 0x00, 0x01, 0x00, 0x00] =
    .packet (.set 0 [0x46, 0x46, 0x46] (Brightness.ofField 65536)) [] ∧
  decode [0x05, 0x03, 0x06, 0x46, 0x46, 0x30, 0x30, 0x30, 0x30, 0x00, 0x01, 0x00, 0x00, 0x00, 0x02, 0x00, 0x00, 0x27, 0x10] =
    .packet (.flash 3 Color.red (Brightness.ofField 65536) 2 (Duration.ofField 10000)) [] ∧
  decode [0xFF, 0x04] = .illegal 0xFF [0x04] ∧ decode [0x01, 0x06, 0x46, 0x46, 0x46] = .incomplete

/-! ### Steps -/

/-- A step runs the decoded command: the packet is consumed whole, then the command is executed to completion (30_encoding.md section 2, 44_driver_facade.md section 1).
The strikes still to come are one command nearer (log 4); `StrikeAbandonsTheCommandItFallsIn` says what happens where one falls in the command. -/
def Obligations.StepRunsTheDecodedCommand : Prop :=
  ∀ (s : State) (i : Instr) (rest : List Byte), decode s.input = .packet i rest → s.dueStrike = none →
    step s = exec i { s with input := rest, resets := passCommand s.resets }

/-- An undefined opcode byte, in every mode (30_encoding.md section 5; the spec's decision D5, log 22): one byte consumed, nothing but `STATUS` changed (and the model's record, log 23;
the strikes still to come are one command nearer, log 4). -/
def Obligations.UndefinedOpcodeIsIllegalCommand : Prop :=
  ∀ (op : Byte) (rest : List Byte) (s : State), s.input = op :: rest → op = 0x00 ∨ 7 ≤ op.toNat → s.dueStrike = none →
    step s = .next { s with
      input := rest
      resets := passCommand s.resets
      status := .fault .illegalCommand
      output := s.output ++ [0x06]
      faultLog := s.faultLog ++ [.illegalCommand] }

/-- An incomplete packet is waited for (30_encoding.md section 6): the step changes nothing; and every proper beginning of a packet is incomplete. -/
def Obligations.IncompletePacketIsWaitedFor : Prop :=
  (∀ s : State, decode s.input = .incomplete → s.resets = [] → step s = .next s) ∧
  ∀ (i : Instr) (bs more : List Byte), i.wellFormed = true → encode i = bs ++ more → more ≠ [] → decode bs = .incomplete

/-- A reset strike while the block waits (70_reset_and_hazards.md section 1, the spec's decision D28): the spec's reset values, no event, in every mode and also in the middle of a packet. What the
strip holds after it is the model's choice (log 3) and not stated; that the model's records stay is its choice too (log 5). -/
def Obligations.ResetRestoresTheResetValues : Prop :=
  ∀ (s : State) (k : ResetStrike) (later : List ResetStrike), decode s.input = .incomplete → s.resets = k :: later →
    ∃ t, step s = .next t ∧ t.dstate = .uninitialized ∧ t.status = .ok ∧ t.own = false ∧ t.dat = .x ∧ t.clk = .x ∧ t.trace = [] ∧
      t.input = k.received ∧ t.resets = later ∧ t.output = s.output ∧ t.faultLog = s.faultLog ∧ t.pinWrites = s.pinWrites ∧ t.pins = s.pins

/-- The state after reset (10_state.md section 8), but for the strip, which the spec leaves unspecified. -/
def Obligations.ResetStateHasTheResetValues : Prop :=
  State.reset.dstate = .uninitialized ∧ State.reset.status = .ok ∧ State.reset.own = false ∧ State.reset.dat = .x ∧
    State.reset.clk = .x ∧ State.reset.trace = []

/-- The invariants of Safety.lean hold after reset (rules R21, R29, R156 say what they are). -/
def Obligations.InvariantsHoldAtReset : Prop := State.reset.Inv

/-- Every step keeps the invariants (10_state.md sections 1 and 4, 44_driver_facade.md section 2): ownership exactly in `Active`, every channel a table output, one release and nothing after it, dark and
released once closed. -/
def Obligations.EveryStepKeepsTheInvariants : Prop := ∀ s t : State, s.Inv → step s = .next t → t.Inv

/-- A reset strike during a command (70_reset_and_hazards.md section 1, the spec's decision D28): the command is abandoned where it stands, neither completed nor answered, and the spec's reset values
stand, with no event. The collaborator has answered the line writes made by then: those the strike names, or all the command has (log 4). So too for an undefined byte, which writes
no line. -/
def Obligations.StrikeAbandonsTheCommandItFallsIn : Prop :=
  ∀ (s : State) (k : ResetStrike) (later : List ResetStrike), s.resets = k :: later → k.commands = 0 →
    (∀ (i : Instr) (rest : List Byte), decode s.input = .packet i rest →
      ∃ t u, step s = .next t ∧ exec i { s with input := rest, resets := passCommand s.resets } = .next u ∧
        t.dstate = .uninitialized ∧ t.status = .ok ∧ t.own = false ∧ t.dat = .x ∧ t.clk = .x ∧ t.trace = [] ∧
        t.input = k.received ∧ t.resets = later ∧ t.output = s.output ∧ t.faultLog = s.faultLog ∧ t.pins = s.pins ∧
        t.pinWrites = min (s.pinWrites + k.writes) u.pinWrites) ∧
    ∀ (op : Byte) (rest : List Byte), decode s.input = .illegal op rest →
      ∃ t, step s = .next t ∧ t.dstate = .uninitialized ∧ t.status = .ok ∧ t.own = false ∧ t.dat = .x ∧ t.clk = .x ∧ t.trace = [] ∧
        t.input = k.received ∧ t.resets = later ∧ t.output = s.output ∧ t.faultLog = s.faultLog ∧ t.pins = s.pins ∧
        t.pinWrites = s.pinWrites
end

