-- ==== Sys2Proof/Laws/State.lean ====
section
/-! SUPPORT. One lemma per field per update of the state, so that no later proof unfolds a record update. -/

namespace Sys2Proof.Machine

open Sys2Proof

variable (s : State)

@[simp] theorem State.setLampReg_strip (i : Fin Config.numLamps) (v : LampSetting) : (s.setLampReg i v).strip = s.strip.set i v := rfl
@[simp] theorem State.setLampReg_dstate (i : Fin Config.numLamps) (v : LampSetting) : (s.setLampReg i v).dstate = s.dstate := rfl
@[simp] theorem State.setLampReg_status (i : Fin Config.numLamps) (v : LampSetting) : (s.setLampReg i v).status = s.status := rfl
@[simp] theorem State.setLampReg_own (i : Fin Config.numLamps) (v : LampSetting) : (s.setLampReg i v).own = s.own := rfl
@[simp] theorem State.setLampReg_dat (i : Fin Config.numLamps) (v : LampSetting) : (s.setLampReg i v).dat = s.dat := rfl
@[simp] theorem State.setLampReg_clk (i : Fin Config.numLamps) (v : LampSetting) : (s.setLampReg i v).clk = s.clk := rfl
@[simp] theorem State.setLampReg_trace (i : Fin Config.numLamps) (v : LampSetting) : (s.setLampReg i v).trace = s.trace := rfl
@[simp] theorem State.setLampReg_input (i : Fin Config.numLamps) (v : LampSetting) : (s.setLampReg i v).input = s.input := rfl
@[simp] theorem State.setLampReg_resets (i : Fin Config.numLamps) (v : LampSetting) : (s.setLampReg i v).resets = s.resets := rfl
@[simp] theorem State.setLampReg_output (i : Fin Config.numLamps) (v : LampSetting) : (s.setLampReg i v).output = s.output := rfl
@[simp] theorem State.setLampReg_faultLog (i : Fin Config.numLamps) (v : LampSetting) : (s.setLampReg i v).faultLog = s.faultLog := rfl
@[simp] theorem State.setLampReg_pinWrites (i : Fin Config.numLamps) (v : LampSetting) : (s.setLampReg i v).pinWrites = s.pinWrites := rfl
@[simp] theorem State.setLampReg_pins (i : Fin Config.numLamps) (v : LampSetting) : (s.setLampReg i v).pins = s.pins := rfl

@[simp] theorem State.setMode_strip (m : Mode) : (s.setMode m).strip = s.strip := rfl
@[simp] theorem State.setMode_dstate (m : Mode) : (s.setMode m).dstate = m := rfl
@[simp] theorem State.setMode_status (m : Mode) : (s.setMode m).status = s.status := rfl
@[simp] theorem State.setMode_own (m : Mode) : (s.setMode m).own = s.own := rfl
@[simp] theorem State.setMode_dat (m : Mode) : (s.setMode m).dat = s.dat := rfl
@[simp] theorem State.setMode_clk (m : Mode) : (s.setMode m).clk = s.clk := rfl
@[simp] theorem State.setMode_trace (m : Mode) : (s.setMode m).trace = s.trace := rfl
@[simp] theorem State.setMode_input (m : Mode) : (s.setMode m).input = s.input := rfl
@[simp] theorem State.setMode_resets (m : Mode) : (s.setMode m).resets = s.resets := rfl
@[simp] theorem State.setMode_output (m : Mode) : (s.setMode m).output = s.output := rfl
@[simp] theorem State.setMode_faultLog (m : Mode) : (s.setMode m).faultLog = s.faultLog := rfl
@[simp] theorem State.setMode_pinWrites (m : Mode) : (s.setMode m).pinWrites = s.pinWrites := rfl
@[simp] theorem State.setMode_pins (m : Mode) : (s.setMode m).pins = s.pins := rfl

@[simp] theorem State.setOwn_strip (b : Bool) : (s.setOwn b).strip = s.strip := rfl
@[simp] theorem State.setOwn_dstate (b : Bool) : (s.setOwn b).dstate = s.dstate := rfl
@[simp] theorem State.setOwn_status (b : Bool) : (s.setOwn b).status = s.status := rfl
@[simp] theorem State.setOwn_own (b : Bool) : (s.setOwn b).own = b := rfl
@[simp] theorem State.setOwn_dat (b : Bool) : (s.setOwn b).dat = s.dat := rfl
@[simp] theorem State.setOwn_clk (b : Bool) : (s.setOwn b).clk = s.clk := rfl
@[simp] theorem State.setOwn_trace (b : Bool) : (s.setOwn b).trace = s.trace := rfl
@[simp] theorem State.setOwn_input (b : Bool) : (s.setOwn b).input = s.input := rfl
@[simp] theorem State.setOwn_resets (b : Bool) : (s.setOwn b).resets = s.resets := rfl
@[simp] theorem State.setOwn_output (b : Bool) : (s.setOwn b).output = s.output := rfl
@[simp] theorem State.setOwn_faultLog (b : Bool) : (s.setOwn b).faultLog = s.faultLog := rfl
@[simp] theorem State.setOwn_pinWrites (b : Bool) : (s.setOwn b).pinWrites = s.pinWrites := rfl
@[simp] theorem State.setOwn_pins (b : Bool) : (s.setOwn b).pins = s.pins := rfl

@[simp] theorem State.emit_strip (e : Event) : (s.emit e).strip = s.strip := rfl
@[simp] theorem State.emit_dstate (e : Event) : (s.emit e).dstate = s.dstate := rfl
@[simp] theorem State.emit_status (e : Event) : (s.emit e).status = s.status := rfl
@[simp] theorem State.emit_own (e : Event) : (s.emit e).own = s.own := rfl
@[simp] theorem State.emit_dat (e : Event) : (s.emit e).dat = s.dat := rfl
@[simp] theorem State.emit_clk (e : Event) : (s.emit e).clk = s.clk := rfl
@[simp] theorem State.emit_trace (e : Event) : (s.emit e).trace = s.trace ++ [e] := rfl
@[simp] theorem State.emit_input (e : Event) : (s.emit e).input = s.input := rfl
@[simp] theorem State.emit_resets (e : Event) : (s.emit e).resets = s.resets := rfl
@[simp] theorem State.emit_output (e : Event) : (s.emit e).output = s.output := rfl
@[simp] theorem State.emit_faultLog (e : Event) : (s.emit e).faultLog = s.faultLog := rfl
@[simp] theorem State.emit_pinWrites (e : Event) : (s.emit e).pinWrites = s.pinWrites := rfl
@[simp] theorem State.emit_pins (e : Event) : (s.emit e).pins = s.pins := rfl

@[simp] theorem State.countWrite_strip : (s.countWrite).strip = s.strip := rfl
@[simp] theorem State.countWrite_dstate : (s.countWrite).dstate = s.dstate := rfl
@[simp] theorem State.countWrite_status : (s.countWrite).status = s.status := rfl
@[simp] theorem State.countWrite_own : (s.countWrite).own = s.own := rfl
@[simp] theorem State.countWrite_dat : (s.countWrite).dat = s.dat := rfl
@[simp] theorem State.countWrite_clk : (s.countWrite).clk = s.clk := rfl
@[simp] theorem State.countWrite_trace : (s.countWrite).trace = s.trace := rfl
@[simp] theorem State.countWrite_input : (s.countWrite).input = s.input := rfl
@[simp] theorem State.countWrite_resets : (s.countWrite).resets = s.resets := rfl
@[simp] theorem State.countWrite_output : (s.countWrite).output = s.output := rfl
@[simp] theorem State.countWrite_faultLog : (s.countWrite).faultLog = s.faultLog := rfl
@[simp] theorem State.countWrite_pinWrites : (s.countWrite).pinWrites = s.pinWrites + 1 := rfl
@[simp] theorem State.countWrite_pins : (s.countWrite).pins = s.pins := rfl

@[simp] theorem respond_strip (st : Status) : (respond st s).strip = s.strip := rfl
@[simp] theorem respond_dstate (st : Status) : (respond st s).dstate = s.dstate := rfl
@[simp] theorem respond_status (st : Status) : (respond st s).status = st := rfl
@[simp] theorem respond_own (st : Status) : (respond st s).own = s.own := rfl
@[simp] theorem respond_dat (st : Status) : (respond st s).dat = s.dat := rfl
@[simp] theorem respond_clk (st : Status) : (respond st s).clk = s.clk := rfl
@[simp] theorem respond_trace (st : Status) : (respond st s).trace = s.trace := rfl
@[simp] theorem respond_input (st : Status) : (respond st s).input = s.input := rfl
@[simp] theorem respond_resets (st : Status) : (respond st s).resets = s.resets := rfl
@[simp] theorem respond_output (st : Status) : (respond st s).output = s.output ++ st.response := rfl
@[simp] theorem respond_faultLog (st : Status) : (respond st s).faultLog = s.faultLog := rfl
@[simp] theorem respond_pinWrites (st : Status) : (respond st s).pinWrites = s.pinWrites := rfl
@[simp] theorem respond_pins (st : Status) : (respond st s).pins = s.pins := rfl

@[simp] theorem takeFault_strip (f : CmdFault) : (takeFault f s).strip = s.strip := rfl
@[simp] theorem takeFault_dstate (f : CmdFault) : (takeFault f s).dstate = s.dstate := rfl
@[simp] theorem takeFault_status (f : CmdFault) : (takeFault f s).status = .fault f := rfl
@[simp] theorem takeFault_own (f : CmdFault) : (takeFault f s).own = s.own := rfl
@[simp] theorem takeFault_dat (f : CmdFault) : (takeFault f s).dat = s.dat := rfl
@[simp] theorem takeFault_clk (f : CmdFault) : (takeFault f s).clk = s.clk := rfl
@[simp] theorem takeFault_trace (f : CmdFault) : (takeFault f s).trace = s.trace := rfl
@[simp] theorem takeFault_input (f : CmdFault) : (takeFault f s).input = s.input := rfl
@[simp] theorem takeFault_resets (f : CmdFault) : (takeFault f s).resets = s.resets := rfl
@[simp] theorem takeFault_output (f : CmdFault) : (takeFault f s).output = s.output ++ Status.response (.fault f) := rfl
@[simp] theorem takeFault_faultLog (f : CmdFault) : (takeFault f s).faultLog = s.faultLog ++ [f] := rfl
@[simp] theorem takeFault_pinWrites (f : CmdFault) : (takeFault f s).pinWrites = s.pinWrites := rfl
@[simp] theorem takeFault_pins (f : CmdFault) : (takeFault f s).pins = s.pins := rfl

@[simp] theorem State.take_strip (rest : List Byte) : (s.take rest).strip = s.strip := rfl
@[simp] theorem State.take_dstate (rest : List Byte) : (s.take rest).dstate = s.dstate := rfl
@[simp] theorem State.take_status (rest : List Byte) : (s.take rest).status = s.status := rfl
@[simp] theorem State.take_own (rest : List Byte) : (s.take rest).own = s.own := rfl
@[simp] theorem State.take_dat (rest : List Byte) : (s.take rest).dat = s.dat := rfl
@[simp] theorem State.take_clk (rest : List Byte) : (s.take rest).clk = s.clk := rfl
@[simp] theorem State.take_trace (rest : List Byte) : (s.take rest).trace = s.trace := rfl
@[simp] theorem State.take_input (rest : List Byte) : (s.take rest).input = rest := rfl
@[simp] theorem State.take_resets (rest : List Byte) : (s.take rest).resets = passCommand s.resets := rfl
@[simp] theorem State.take_output (rest : List Byte) : (s.take rest).output = s.output := rfl
@[simp] theorem State.take_faultLog (rest : List Byte) : (s.take rest).faultLog = s.faultLog := rfl
@[simp] theorem State.take_pinWrites (rest : List Byte) : (s.take rest).pinWrites = s.pinWrites := rfl
@[simp] theorem State.take_pins (rest : List Byte) : (s.take rest).pins = s.pins := rfl

@[simp] theorem State.prependCommand_strip (bs : List Byte) : (s.prependCommand bs).strip = s.strip := rfl
@[simp] theorem State.prependCommand_dstate (bs : List Byte) : (s.prependCommand bs).dstate = s.dstate := rfl
@[simp] theorem State.prependCommand_status (bs : List Byte) : (s.prependCommand bs).status = s.status := rfl
@[simp] theorem State.prependCommand_own (bs : List Byte) : (s.prependCommand bs).own = s.own := rfl
@[simp] theorem State.prependCommand_dat (bs : List Byte) : (s.prependCommand bs).dat = s.dat := rfl
@[simp] theorem State.prependCommand_clk (bs : List Byte) : (s.prependCommand bs).clk = s.clk := rfl
@[simp] theorem State.prependCommand_trace (bs : List Byte) : (s.prependCommand bs).trace = s.trace := rfl
@[simp] theorem State.prependCommand_input (bs : List Byte) : (s.prependCommand bs).input = bs ++ s.input := rfl
@[simp] theorem State.prependCommand_resets (bs : List Byte) : (s.prependCommand bs).resets = expectCommand s.resets := rfl
@[simp] theorem State.prependCommand_output (bs : List Byte) : (s.prependCommand bs).output = s.output := rfl
@[simp] theorem State.prependCommand_faultLog (bs : List Byte) : (s.prependCommand bs).faultLog = s.faultLog := rfl
@[simp] theorem State.prependCommand_pinWrites (bs : List Byte) : (s.prependCommand bs).pinWrites = s.pinWrites := rfl
@[simp] theorem State.prependCommand_pins (bs : List Byte) : (s.prependCommand bs).pins = s.pins := rfl

@[simp] theorem State.setLine_strip (line : Line) (l : LineLevel) : (s.setLine line l).strip = s.strip := by cases line <;> rfl
@[simp] theorem State.setLine_dstate (line : Line) (l : LineLevel) : (s.setLine line l).dstate = s.dstate := by cases line <;> rfl
@[simp] theorem State.setLine_status (line : Line) (l : LineLevel) : (s.setLine line l).status = s.status := by cases line <;> rfl
@[simp] theorem State.setLine_own (line : Line) (l : LineLevel) : (s.setLine line l).own = s.own := by cases line <;> rfl
@[simp] theorem State.setLine_trace (line : Line) (l : LineLevel) : (s.setLine line l).trace = s.trace := by cases line <;> rfl
@[simp] theorem State.setLine_input (line : Line) (l : LineLevel) : (s.setLine line l).input = s.input := by cases line <;> rfl
@[simp] theorem State.setLine_resets (line : Line) (l : LineLevel) : (s.setLine line l).resets = s.resets := by cases line <;> rfl
@[simp] theorem State.setLine_output (line : Line) (l : LineLevel) : (s.setLine line l).output = s.output := by cases line <;> rfl
@[simp] theorem State.setLine_faultLog (line : Line) (l : LineLevel) : (s.setLine line l).faultLog = s.faultLog := by cases line <;> rfl
@[simp] theorem State.setLine_pinWrites (line : Line) (l : LineLevel) : (s.setLine line l).pinWrites = s.pinWrites := by cases line <;> rfl
@[simp] theorem State.setLine_pins (line : Line) (l : LineLevel) : (s.setLine line l).pins = s.pins := by cases line <;> rfl

@[simp] theorem State.setLine_data_dat (l : LineLevel) : (s.setLine .data l).dat = l := rfl
@[simp] theorem State.setLine_data_clk (l : LineLevel) : (s.setLine .data l).clk = s.clk := rfl
@[simp] theorem State.setLine_clk_dat (l : LineLevel) : (s.setLine .clk l).dat = s.dat := rfl
@[simp] theorem State.setLine_clk_clk (l : LineLevel) : (s.setLine .clk l).clk = l := rfl

@[simp] theorem applyReset_dstate (k : ResetStrike) (l : List ResetStrike) : (applyReset s k l).dstate = .uninitialized := rfl
@[simp] theorem applyReset_status (k : ResetStrike) (l : List ResetStrike) : (applyReset s k l).status = .ok := rfl
@[simp] theorem applyReset_own (k : ResetStrike) (l : List ResetStrike) : (applyReset s k l).own = false := rfl
@[simp] theorem applyReset_dat (k : ResetStrike) (l : List ResetStrike) : (applyReset s k l).dat = .x := rfl
@[simp] theorem applyReset_clk (k : ResetStrike) (l : List ResetStrike) : (applyReset s k l).clk = .x := rfl
@[simp] theorem applyReset_trace (k : ResetStrike) (l : List ResetStrike) : (applyReset s k l).trace = [] := rfl
@[simp] theorem applyReset_input (k : ResetStrike) (l : List ResetStrike) : (applyReset s k l).input = k.received := rfl
@[simp] theorem applyReset_resets (k : ResetStrike) (l : List ResetStrike) : (applyReset s k l).resets = l := rfl
@[simp] theorem applyReset_output (k : ResetStrike) (l : List ResetStrike) : (applyReset s k l).output = s.output := rfl
@[simp] theorem applyReset_faultLog (k : ResetStrike) (l : List ResetStrike) : (applyReset s k l).faultLog = s.faultLog := rfl
@[simp] theorem applyReset_pinWrites (k : ResetStrike) (l : List ResetStrike) : (applyReset s k l).pinWrites = s.pinWrites := rfl
@[simp] theorem applyReset_pins (k : ResetStrike) (l : List ResetStrike) : (applyReset s k l).pins = s.pins := rfl

/-- A lamp register after a store to it (rule R13). -/
@[simp] theorem State.lamp_setLampReg_self (i : Fin Config.numLamps) (v : LampSetting) :
    (s.setLampReg i v).lamp i = v := by
  simp [State.lamp]

/-- A store to one lamp register leaves the others alone (rule R47). -/
theorem State.lamp_setLampReg_ne {i j : Fin Config.numLamps} (h : j ≠ i) (v : LampSetting) :
    (s.setLampReg i v).lamp j = s.lamp j := by
  simp [State.lamp, Vector.getElem_set_ne, Fin.val_ne_of_ne h.symm]

end Sys2Proof.Machine
end

