-- ==== Sys2Proof/Laws/Ops.lean ====
section
/-! SUPPORT. What the shared operations can do: sequencing and loops, the gate, the stores, the line write, completing a command. -/

namespace Sys2Proof.Machine

open Sys2Proof

/-! ### Sequencing (rule R15) -/

@[simp] theorem Run.done_andThen (s : State) (k : State → Run) : (Run.done s).andThen k = k s := rfl

@[simp] theorem Run.raised_andThen (f : CmdFault) (s : State) (k : State → Run) :
    (Run.raised f s).andThen k = .raised f s := rfl

@[simp] theorem Run.andThen_assoc (r : Run) (k l : State → Run) :
    (r.andThen k).andThen l = r.andThen fun s => (k s).andThen l := by
  cases r <;> rfl

@[simp] theorem Run.andThen_done (r : Run) : r.andThen .done = r := by cases r <;> rfl

@[simp] theorem Run.done_onFault (s : State) (undo : State → State) : (Run.done s).onFault undo = .done s := rfl

@[simp] theorem Run.raised_onFault (f : CmdFault) (s : State) (undo : State → State) :
    (Run.raised f s).onFault undo = .raised f (undo s) := rfl

@[simp] theorem Run.state_done (s : State) : (Run.done s).state = s := rfl

@[simp] theorem Run.state_raised (f : CmdFault) (s : State) : (Run.raised f s).state = s := rfl

@[simp] theorem forEach_nil {α : Type} (body : α → State → Run) (s : State) : forEach [] body s = .done s := rfl

@[simp] theorem forEach_cons {α : Type} (a : α) (as : List α) (body : α → State → Run) (s : State) :
    forEach (a :: as) body s = (body a s).andThen (forEach as body) := rfl

theorem forEach_append {α : Type} (as bs : List α) (body : α → State → Run) (s : State) :
    forEach (as ++ bs) body s = (forEach as body s).andThen (forEach bs body) := by
  induction as generalizing s with
  | nil => rfl
  | cons a as ih =>
    simp only [List.cons_append, forEach_cons, Run.andThen_assoc]
    exact congrArg _ (funext ih)

@[simp] theorem repeatTimes_zero (body : State → Run) (s : State) : repeatTimes 0 body s = .done s := rfl

@[simp] theorem repeatTimes_succ (n : Nat) (body : State → Run) (s : State) :
    repeatTimes (n + 1) body s = (body s).andThen (repeatTimes n body) := rfl

/-! ### What holds across a statement: a relation between the state before and the state it leaves, done or raised -/

/-- Every way `body` ends relates the state it left to the state it began in. -/
def Moves (R : State → State → Prop) (body : State → Run) : Prop := ∀ s, R s (body s).state

section Moves

variable {R : State → State → Prop}

theorem moves_done (h : ∀ s, R s s) : Moves R .done := h

theorem moves_andThen (trans : ∀ a b c, R a b → R b c → R a c) {f g : State → Run} (hf : Moves R f) (hg : Moves R g) :
    Moves R fun s => (f s).andThen g := by
  intro s
  have h := hf s
  cases hr : f s with
  | done t => simp only [hr, Run.state_done, Run.done_andThen] at h ⊢; exact trans _ _ _ h (hg t)
  | raised e t => simpa [hr] using h

theorem moves_forEach (refl : ∀ s, R s s) (trans : ∀ a b c, R a b → R b c → R a c) {α : Type} (as : List α)
    {body : α → State → Run} (h : ∀ a ∈ as, Moves R (body a)) : Moves R (forEach as body) := by
  induction as with
  | nil => exact fun s => refl s
  | cons a as ih =>
    exact moves_andThen trans (h a (List.mem_cons_self ..)) (ih fun b hb => h b (List.mem_cons_of_mem _ hb))

theorem moves_repeatTimes (refl : ∀ s, R s s) (trans : ∀ a b c, R a b → R b c → R a c) (n : Nat)
    {body : State → Run} (h : Moves R body) : Moves R (repeatTimes n body) := by
  induction n with
  | zero => exact fun s => refl s
  | succ n ih => exact moves_andThen trans h ih

end Moves

/-! ### The gate (rule R151) -/

/-- The gate never changes the state: it passes or raises one of its two faults. -/
theorem gate_cases (cmd : Opcode) (s : State) :
    gate cmd s = .done s ∨ gate cmd s = .raised .postCloseUse s ∨ gate cmd s = .raised .stateError s := by
  unfold gate
  split
  · exact .inr (.inl rfl)
  · split
    · exact .inr (.inr rfl)
    · exact .inl rfl
  · split
    · exact .inl rfl
    · exact .inr (.inr rfl)

theorem gate_closed {cmd : Opcode} {s : State} (h : s.dstate = .closed) : gate cmd s = .raised .postCloseUse s := by
  simp [gate, h]

theorem gate_active {cmd : Opcode} {s : State} (h : s.dstate = .active) (hc : cmd ≠ .init) : gate cmd s = .done s := by
  simp [gate, h, hc]

theorem gate_active_init {s : State} (h : s.dstate = .active) : gate .init s = .raised .stateError s := by
  simp [gate, h]

theorem gate_uninitialized {cmd : Opcode} {s : State} (h : s.dstate = .uninitialized) (hc : cmd ≠ .init) :
    gate cmd s = .raised .stateError s := by
  simp [gate, h, hc]

theorem gate_uninitialized_init {s : State} (h : s.dstate = .uninitialized) : gate .init s = .done s := by
  simp [gate, h]

/-- A command passes the gate only in the mode that accepts it. -/
theorem gate_done {cmd : Opcode} {s t : State} (h : gate cmd s = .done t) :
    t = s ∧ (cmd = .init ∧ s.dstate = .uninitialized ∨ cmd ≠ .init ∧ s.dstate = .active) := by
  unfold gate at h
  cases hd : s.dstate <;> by_cases hc : cmd = .init <;> simp_all

/-! ### Stores to lamp registers (rules R94, R97) -/

theorem lampIndex_fin (i : Fin Config.numLamps) : lampIndex (i.val : Int) = some i := by
  have h : (0 : Int) ≤ i.val ∧ (i.val : Int) < (Config.numLamps : Int) := by have := i.isLt; omega
  simp [lampIndex, h]

theorem lampIndex_some {i : Int} {j : Fin Config.numLamps} (h : lampIndex i = some j) : i = j.val := by
  unfold lampIndex at h
  split at h
  · simp only [Option.some.injEq] at h; subst h; simp; omega
  · cases h

theorem lampIndex_none {i : Int} : lampIndex i = none ↔ i < 0 ∨ 7 < i := by
  have n : (Config.numLamps : Int) = 8 := rfl
  unfold lampIndex
  split <;> simp <;> omega

/-- Everything `SetLamp` can do. -/
theorem setLamp_cases (i : Int) (c : Color) (b : ℚ) (s : State) :
    (parseColor c = none ∧ setLamp i c b s = .raised .invalidColorFormat s) ∨
    (∃ rgb, parseColor c = some rgb ∧ lampIndex i = none ∧ setLamp i c b s = .raised .indexOutOfRange s) ∨
    ∃ rgb j, parseColor c = some rgb ∧ lampIndex i = some j ∧
      setLamp i c b s = .done (s.setLampReg j (lampValue rgb b)) := by
  unfold setLamp
  cases hc : parseColor c with
  | none => exact .inl ⟨rfl, rfl⟩
  | some rgb =>
    cases hi : lampIndex i with
    | none => exact .inr (.inl ⟨rgb, rfl, rfl, rfl⟩)
    | some j => exact .inr (.inr ⟨rgb, j, rfl, rfl, rfl⟩)

theorem setLamp_fin {c : Color} {rgb : Rgb} (h : parseColor c = some rgb) (i : Fin Config.numLamps) (b : ℚ) (s : State) :
    setLamp (i.val : Int) c b s = .done (s.setLampReg i (lampValue rgb b)) := by
  simp [setLamp, h, lampIndex_fin]

theorem setLamp_badColor {c : Color} (h : parseColor c = none) (i : Int) (b : ℚ) (s : State) :
    setLamp i c b s = .raised .invalidColorFormat s := by
  simp [setLamp, h]

@[simp] theorem setOff_eq (i : Fin Config.numLamps) (s : State) : setOff i s = .done (s.setLampReg i LampSetting.off) := rfl

theorem lamps_eq : lamps = [0, 1, 2, 3, 4, 5, 6, 7] := rfl

/-- After a store to every lamp, in strip order, every lamp holds the value. -/
theorem set_every_lamp (st : Strip) (v : LampSetting) :
    lamps.foldl (fun st i => st.set i v) st = Vector.replicate Config.numLamps v := by
  ext i hi : 1
  simp only [lamps_eq, List.foldl_cons, List.foldl_nil, Vector.getElem_set, Vector.getElem_replicate]
  have : i < 8 := hi
  interval_cases i <;> simp

/-- `SetAllOff` turns every lamp off and changes nothing else (rule R97). -/
theorem setAllOff_eq (s : State) : setAllOff s = .done { s with strip := Strip.off } := by
  have := set_every_lamp s.strip LampSetting.off
  simp only [lamps_eq, List.foldl_cons, List.foldl_nil] at this
  simp only [setAllOff, lamps_eq, forEach_cons, setOff_eq, Run.done_andThen, forEach_nil, State.setLampReg, this, Strip.off]

/-- A loop of `SetLamp` over every lamp with a colour that parses (rule R96). -/
theorem setEveryLamp_eq {c : Color} {rgb : Rgb} (h : parseColor c = some rgb) (b : ℚ) (s : State) :
    setEveryLamp c b s = .done { s with strip := Vector.replicate Config.numLamps (lampValue rgb b) } := by
  have := set_every_lamp s.strip (lampValue rgb b)
  simp only [lamps_eq, List.foldl_cons, List.foldl_nil] at this
  simp only [setEveryLamp, lamps_eq, forEach_cons, setLamp_fin h, Run.done_andThen, forEach_nil, State.setLampReg, this]

/-- The same loop with a colour that does not parse fails at lamp 0, before any store (rule R96). -/
theorem setEveryLamp_badColor {c : Color} (h : parseColor c = none) (b : ℚ) (s : State) :
    setEveryLamp c b s = .raised .invalidColorFormat s := by
  simp [setEveryLamp, lamps_eq, setLamp_badColor h]

/-! ### The line write (rule R110) -/

/-- Everything `PinWrite` can do. -/
theorem pinWrite_cases (line : Line) (level : Bool) (s : State) :
    (s.pins.answer s.pinWrites = .ok ∧
      pinWrite line level s = .done ((s.countWrite.emit (.write line level)).setLine line (.driven level))) ∨
    ∃ e, s.pins.answer s.pinWrites = .err e ∧
      pinWrite line level s = .raised (.pinError e) (s.countWrite.setLine line .x) := by
  unfold pinWrite
  cases h : s.pins.answer s.pinWrites with
  | ok => exact .inl ⟨rfl, rfl⟩
  | err e => exact .inr ⟨e, rfl, rfl⟩

theorem pinWrite_accepted {line : Line} {level : Bool} {s : State} (h : s.pins.answer s.pinWrites = .ok) :
    pinWrite line level s = .done ((s.countWrite.emit (.write line level)).setLine line (.driven level)) := by
  simp [pinWrite, h]

theorem pinWrite_refused {line : Line} {level : Bool} {s : State} {e : PinErr}
    (h : s.pins.answer s.pinWrites = .err e) :
    pinWrite line level s = .raised (.pinError e) (s.countWrite.setLine line .x) := by
  simp [pinWrite, h]

/-- A collaborator whose answers are settled far enough, with no refusal, accepts. -/
theorem acceptsNext_of_settled {s : State} {n : Nat} (hr : s.pins.refusals = []) (hn : s.pinWrites + n ≤ s.pins.settled) :
    ∀ k < n, s.pins.answer (s.pinWrites + k) = .ok := by
  intro k hk
  simp [PinPlan.answer, hr, show s.pinWrites + k < s.pins.settled by omega]

/-! ### Completing a command (rules R169, R171) -/

@[simp] theorem complete_done (s : State) : complete (.done s) = .next (respond .ok s) := rfl

@[simp] theorem complete_raised (f : CmdFault) (s : State) : complete (.raised f s) = .next (takeFault f s) := rfl

/-- A completed command leaves the state its body left, with a status and its response. -/
theorem complete_cases (r : Run) :
    (∃ s, r = .done s ∧ complete r = .next (respond .ok s)) ∨
    ∃ f s, r = .raised f s ∧ complete r = .next (takeFault f s) := by
  cases r with
  | done s => exact .inl ⟨s, rfl, rfl⟩
  | raised f s => exact .inr ⟨f, s, rfl, rfl⟩

end Sys2Proof.Machine
end

