-- ==== Sys2Proof/Laws/Encoder.lean ====
section
/-! SUPPORT. The serializer as one list of line writes (rules R111 to R117), and what a list of line writes can do: all accepted, or all
accepted up to a refused one (rule R123). -/

namespace Sys2Proof.Machine

open Sys2Proof

/-- A line write: the line and the level. -/
abbrev LineWrite := Line × Bool

/-- Line writes one after another, until one is refused. -/
def sendAll : List LineWrite → State → Run
  | [], s => .done s
  | w :: ws, s => (pinWrite w.1 w.2 s).andThen (sendAll ws)

/-- The event of an accepted line write (rule R110). -/
def LineWrite.event (w : LineWrite) : Event := .write w.1 w.2

/-- The state after one accepted line write (rule R110). -/
def State.wrote (s : State) (w : LineWrite) : State := (s.countWrite.emit (LineWrite.event w)).setLine w.1 (.driven w.2)

/-- The state after line writes that are all accepted. -/
def State.sent (s : State) (ws : List LineWrite) : State := ws.foldl State.wrote s

theorem sendAll_append (as bs : List LineWrite) (s : State) :
    sendAll (as ++ bs) s = (sendAll as s).andThen (sendAll bs) := by
  induction as generalizing s with
  | nil => rfl
  | cons a as ih =>
    simp only [List.cons_append, sendAll, Run.andThen_assoc]
    exact congrArg _ (funext ih)

theorem sent_append (s : State) (as bs : List LineWrite) : s.sent (as ++ bs) = (s.sent as).sent bs :=
  List.foldl_append ..

/-! ### What accepted writes leave alone and what they change -/

section Sent

variable (s : State) (ws : List LineWrite)

@[simp] theorem State.sent_strip : (s.sent ws).strip = s.strip := by
  induction ws generalizing s with
  | nil => rfl
  | cons w ws ih => simpa [State.sent, State.wrote] using ih (s.wrote w)

@[simp] theorem State.sent_dstate : (s.sent ws).dstate = s.dstate := by
  induction ws generalizing s with
  | nil => rfl
  | cons w ws ih => simpa [State.sent, State.wrote] using ih (s.wrote w)

@[simp] theorem State.sent_status : (s.sent ws).status = s.status := by
  induction ws generalizing s with
  | nil => rfl
  | cons w ws ih => simpa [State.sent, State.wrote] using ih (s.wrote w)

@[simp] theorem State.sent_own : (s.sent ws).own = s.own := by
  induction ws generalizing s with
  | nil => rfl
  | cons w ws ih => simpa [State.sent, State.wrote] using ih (s.wrote w)

@[simp] theorem State.sent_input : (s.sent ws).input = s.input := by
  induction ws generalizing s with
  | nil => rfl
  | cons w ws ih => simpa [State.sent, State.wrote] using ih (s.wrote w)

@[simp] theorem State.sent_resets : (s.sent ws).resets = s.resets := by
  induction ws generalizing s with
  | nil => rfl
  | cons w ws ih => simpa [State.sent, State.wrote] using ih (s.wrote w)

@[simp] theorem State.sent_output : (s.sent ws).output = s.output := by
  induction ws generalizing s with
  | nil => rfl
  | cons w ws ih => simpa [State.sent, State.wrote] using ih (s.wrote w)

@[simp] theorem State.sent_faultLog : (s.sent ws).faultLog = s.faultLog := by
  induction ws generalizing s with
  | nil => rfl
  | cons w ws ih => simpa [State.sent, State.wrote] using ih (s.wrote w)

@[simp] theorem State.sent_pins : (s.sent ws).pins = s.pins := by
  induction ws generalizing s with
  | nil => rfl
  | cons w ws ih => simpa [State.sent, State.wrote] using ih (s.wrote w)

@[simp] theorem State.sent_pinWrites : (s.sent ws).pinWrites = s.pinWrites + ws.length := by
  induction ws generalizing s with
  | nil => rfl
  | cons w ws ih =>
    have h := ih (s.wrote w)
    simp only [State.wrote, State.setLine_pinWrites, State.emit_pinWrites, State.countWrite_pinWrites] at h
    simp only [State.sent, List.foldl_cons, List.length_cons] at h ⊢
    rw [State.wrote, h]
    omega

@[simp] theorem State.sent_trace : (s.sent ws).trace = s.trace ++ ws.map LineWrite.event := by
  induction ws generalizing s with
  | nil => simp [State.sent]
  | cons w ws ih =>
    have h := ih (s.wrote w)
    simp only [State.wrote, State.setLine_trace, State.emit_trace, State.countWrite_trace] at h
    simp only [State.sent, List.foldl_cons, List.map_cons] at h ⊢
    rw [State.wrote, h]
    simp

/-- The levels of the two lines after accepted writes that end with a clock pulse after a data write. -/
theorem State.sent_lines (x : Bool) (ks : List LineWrite) (hk : ∀ w ∈ ks, w.1 = .clk) (l : Bool) :
    (s.sent (ws ++ (.data, x) :: ks ++ [(.clk, l)])).dat = .driven x ∧
      (s.sent (ws ++ (.data, x) :: ks ++ [(.clk, l)])).clk = .driven l := by
  have keep : ∀ (ks : List LineWrite) (t : State), (∀ w ∈ ks, w.1 = .clk) → (t.sent ks).dat = t.dat := by
    intro ks
    induction ks with
    | nil => intros; rfl
    | cons w ks ih =>
      intro t h
      have hw := h w (List.mem_cons_self ..)
      have := ih (t.wrote w) fun v hv => h v (List.mem_cons_of_mem _ hv)
      simp only [State.wrote, hw, State.setLine_clk_dat, State.emit_dat, State.countWrite_dat] at this
      simpa [State.sent, State.wrote, hw] using this
  simp only [List.append_assoc, List.cons_append, sent_append]
  constructor
  · show (((s.sent ws).wrote (.data, x)).sent (ks ++ [(.clk, l)])).dat = _
    rw [keep _ _ fun w hw => ?_]
    · simp [State.wrote]
    · rcases List.mem_append.mp hw with hw | hw
      · exact hk w hw
      · rw [List.mem_singleton.mp hw]
  · show (((s.sent ws).wrote (.data, x)).sent (ks ++ [(.clk, l)])).clk = _
    rw [sent_append]
    simp [State.sent, State.wrote]

end Sent

/-! ### A list of line writes: all accepted, or up to a refused one -/

theorem AcceptsNext.of_le {s : State} {m n : Nat} (h : s.AcceptsNext n) (hm : m ≤ n) : s.AcceptsNext m :=
  fun k hk => h k (lt_of_lt_of_le hk hm)

/-- A state that differs by `m` more line writes accepts the rest. -/
theorem AcceptsNext.shift {s t : State} {m n : Nat} (h : s.AcceptsNext (m + n)) (hp : t.pins = s.pins)
    (hw : t.pinWrites = s.pinWrites + m) : t.AcceptsNext n := by
  intro k hk
  rw [hp, hw, Nat.add_assoc]
  exact h (m + k) (by omega)

theorem sendAll_accepted {s : State} {ws : List LineWrite} (h : s.AcceptsNext ws.length) :
    sendAll ws s = .done (s.sent ws) := by
  induction ws generalizing s with
  | nil => rfl
  | cons w ws ih =>
    have h0 := pinWrite_accepted (line := w.1) (level := w.2) (by simpa using h 0 (by simp))
    have h1 : (s.wrote w).AcceptsNext ws.length :=
      AcceptsNext.shift (m := 1) (by simpa [Nat.add_comm] using h) (by simp [State.wrote]) (by simp [State.wrote])
    rw [sendAll, h0, Run.done_andThen]
    exact ih h1

theorem sendAll_refused {s : State} {as bs : List LineWrite} {w : LineWrite} {e : PinErr}
    (h : s.RefusesAfter as.length e) :
    sendAll (as ++ w :: bs) s = .raised (.pinError e) ((s.sent as).countWrite.setLine w.1 .x) := by
  have h0 : pinWrite w.1 w.2 (s.sent as) = .raised (.pinError e) ((s.sent as).countWrite.setLine w.1 .x) :=
    pinWrite_refused (by simpa using h.2)
  rw [sendAll_append, sendAll_accepted h.1, Run.done_andThen, sendAll, h0, Run.raised_andThen]

/-- Either all of `n` writes are accepted, or there is a first refused one. -/
theorem accepts_or_refuses (s : State) (n : Nat) : s.AcceptsNext n ∨ ∃ k < n, ∃ e, s.RefusesAfter k e := by
  induction n with
  | zero => exact .inl fun k hk => absurd hk (Nat.not_lt_zero k)
  | succ n ih =>
    rcases ih with h | ⟨k, hk, e, h⟩
    · cases ha : s.pins.answer (s.pinWrites + n) with
      | ok =>
        refine .inl fun k hk => ?_
        rcases Nat.lt_succ_iff_lt_or_eq.mp hk with hk | rfl
        · exact h k hk
        · exact ha
      | err e => exact .inr ⟨n, Nat.lt_succ_self n, e, h, ha⟩
    · exact .inr ⟨k, Nat.lt_succ_of_lt hk, e, h⟩

/-! ### The serializer as line writes (rules R111 to R117) -/

/-- One clock pulse (rule R111). -/
def pulseWrites : List LineWrite := [(.clk, true), (.clk, false)]

/-- One bit (rule R112). -/
def bitWrites (x : Bool) : List LineWrite := (.data, x) :: pulseWrites

/-- One byte (rule R113). -/
def byteWrites (v : Byte) : List LineWrite := msbFirst.flatMap fun p => bitWrites (v.getLsbD p)

/-- A framing part: one data write and its pulses (rules R114, R116). -/
def holdWrites (x : Bool) (pulses : Nat) : List LineWrite :=
  (.data, x) :: (List.replicate pulses pulseWrites).flatten

/-- One lamp's packet (rule R115). -/
def packetWrites (l : LampSetting) : List LineWrite :=
  byteWrites Config.marker ++ byteWrites l.blue ++ byteWrites l.green ++ byteWrites l.red

/-- One frame (rule R117). -/
def frameLineWrites (st : Strip) : List LineWrite :=
  holdWrites false Config.startPulses ++ (lamps.flatMap fun i => packetWrites st[i]) ++ holdWrites true Config.endPulses

theorem clockPulse_eq (s : State) : clockPulse s = sendAll pulseWrites s := by
  simp only [clockPulse, pulseWrites, sendAll]
  exact congrArg _ (funext fun t => (Run.andThen_done _).symm)

theorem sendBit_eq (x : Bool) (s : State) : sendBit x s = sendAll (bitWrites x) s :=
  congrArg _ (funext clockPulse_eq)

theorem forEach_sendAll {α : Type} (as : List α) {body : α → State → Run} {ws : α → List LineWrite}
    (h : ∀ a s, body a s = sendAll (ws a) s) (s : State) : forEach as body s = sendAll (as.flatMap ws) s := by
  induction as generalizing s with
  | nil => rfl
  | cons a as ih =>
    rw [forEach_cons, h, List.flatMap_cons, sendAll_append]
    exact congrArg _ (funext ih)

theorem repeatTimes_sendAll (n : Nat) {body : State → Run} {ws : List LineWrite} (h : ∀ s, body s = sendAll ws s)
    (s : State) : repeatTimes n body s = sendAll (List.replicate n ws).flatten s := by
  induction n generalizing s with
  | zero => rfl
  | succ n ih =>
    rw [repeatTimes_succ, h, List.replicate_succ, List.flatten_cons, sendAll_append]
    exact congrArg _ (funext ih)

theorem sendByte_eq (v : Byte) (s : State) : sendByte v s = sendAll (byteWrites v) s :=
  forEach_sendAll msbFirst (fun p s => sendBit_eq (v.getLsbD p) s) s

theorem startFrame_eq (s : State) : startFrame s = sendAll (holdWrites false Config.startPulses) s :=
  congrArg _ (funext (repeatTimes_sendAll _ clockPulse_eq))

theorem endFrame_eq (s : State) : endFrame s = sendAll (holdWrites true Config.endPulses) s :=
  congrArg _ (funext (repeatTimes_sendAll _ clockPulse_eq))

/-- What a list of line writes leaves of the registers, done or raised. -/
theorem sendAll_strip (ws : List LineWrite) (s : State) : (sendAll ws s).state.strip = s.strip := by
  induction ws generalizing s with
  | nil => rfl
  | cons w ws ih =>
    rcases pinWrite_cases w.1 w.2 s with ⟨-, h⟩ | ⟨e, -, h⟩
    · simp only [sendAll, h, Run.done_andThen, ih]; simp
    · simp [sendAll, h]

/-- A statement that reads the strip after line writes reads it as it was before. -/
theorem sendAll_andThen_congr {ws : List LineWrite} {s : State} {f g : State → Run}
    (h : ∀ t : State, t.strip = s.strip → f t = g t) : (sendAll ws s).andThen f = (sendAll ws s).andThen g := by
  have hs := sendAll_strip ws s
  cases hr : sendAll ws s with
  | done t => exact h t (by simpa [hr] using hs)
  | raised e t => rfl

theorem lampPacket_eq (i : Fin Config.numLamps) (s : State) : lampPacket i s = sendAll (packetWrites (s.lamp i)) s := by
  simp only [lampPacket, packetWrites, sendByte_eq, List.append_assoc]
  rw [sendAll_append]
  refine sendAll_andThen_congr fun t ht => ?_
  rw [show t.lamp i = s.lamp i by simp only [State.lamp, ht], sendAll_append]
  refine sendAll_andThen_congr fun u hu => ?_
  rw [show u.lamp i = s.lamp i by simp only [State.lamp, hu, ht], sendAll_append]
  refine sendAll_andThen_congr fun v hv => ?_
  rw [show v.lamp i = s.lamp i by simp only [State.lamp, hv, hu, ht]]

theorem forEach_lampPacket_eq (is : List (Fin Config.numLamps)) (s : State) :
    forEach is lampPacket s = sendAll (is.flatMap fun i => packetWrites s.strip[i]) s := by
  induction is generalizing s with
  | nil => rfl
  | cons i is ih =>
    rw [forEach_cons, lampPacket_eq, List.flatMap_cons, sendAll_append]
    refine sendAll_andThen_congr fun t ht => ?_
    rw [ih t, ht]

/-- `WriteFrame` is the line writes of the frame of the strip it began with (rules R117, R122). -/
theorem writeFrame_eq (s : State) : writeFrame s = sendAll (frameLineWrites s.strip) s := by
  rw [writeFrame, frameLineWrites, List.append_assoc, sendAll_append, startFrame_eq]
  refine sendAll_andThen_congr fun t ht => ?_
  rw [forEach_lampPacket_eq, ht, sendAll_append]
  exact congrArg _ (funext endFrame_eq)

theorem byteWrites_length (v : Byte) : (byteWrites v).length = 24 := by
  simp [byteWrites, msbFirst, bitWrites, pulseWrites, Config.channelBits]

theorem holdWrites_length (x : Bool) (n : Nat) : (holdWrites x n).length = 1 + 2 * n := by
  simp [holdWrites, pulseWrites, List.length_flatten]; omega

theorem frameLineWrites_length (st : Strip) : (frameLineWrites st).length = 898 := by
  simp [frameLineWrites, holdWrites_length, packetWrites, byteWrites_length, lamps_eq, Config.startPulses, Config.endPulses]

/-- The frame's last data write is the end frame's, and its last clock write a low one (rule R117). -/
theorem frameLineWrites_end (st : Strip) : ∃ ws ks : List LineWrite,
    (∀ w ∈ ks, w.1 = .clk) ∧ frameLineWrites st = ws ++ (.data, true) :: ks ++ [(.clk, false)] := by
  refine ⟨holdWrites false Config.startPulses ++ (lamps.flatMap fun i => packetWrites st[i]),
    (List.replicate 31 pulseWrites).flatten ++ [(.clk, true)], ?_, ?_⟩
  · intro w hw
    simp only [List.mem_append, List.mem_flatten, List.mem_replicate, List.mem_singleton] at hw
    rcases hw with ⟨l, ⟨-, rfl⟩, hl⟩ | rfl
    · simp only [pulseWrites, List.mem_cons, List.not_mem_nil, or_false] at hl
      rcases hl with rfl | rfl <;> rfl
    · rfl
  · have h : holdWrites true Config.endPulses =
        (.data, true) :: ((List.replicate 31 pulseWrites).flatten ++ [(.clk, true)]) ++ [(.clk, false)] := rfl
    rw [frameLineWrites, h]
    simp only [List.append_assoc, List.cons_append]

/-- A frame whose writes are all accepted. -/
theorem writeFrame_accepted {s : State} (h : s.AcceptsNext 898) :
    writeFrame s = .done { s with
      trace := s.trace ++ (frameLineWrites s.strip).map LineWrite.event
      dat := .driven true
      clk := .driven false
      pinWrites := s.pinWrites + 898 } := by
  have hn := frameLineWrites_length s.strip
  rw [writeFrame_eq, sendAll_accepted (hn ▸ h)]
  obtain ⟨ws, ks, hk, he⟩ := frameLineWrites_end s.strip
  have hl := State.sent_lines s ws true ks hk false
  rw [← he] at hl
  have hw : (s.sent (frameLineWrites s.strip)).pinWrites = s.pinWrites + 898 := by rw [State.sent_pinWrites, hn]
  exact congrArg Run.done (State.ext (by simp) (by simp) (by simp) (by simp) hl.1 hl.2 (by simp) (by simp) (by simp)
    (by simp) (by simp) hw (by simp))

end Sys2Proof.Machine
end

