-- ==== Sys2Proof/Laws/Animation.lean ====
section
/-! SUPPORT. How many line writes a statement makes when they are all accepted (rule R144). -/

namespace Sys2Proof.Machine

open Sys2Proof

/-- With its next `m` line writes accepted the statement is done and has made exactly `m`. -/
def Uses (m : Nat) (body : State → Run) : Prop :=
  ∀ s : State, s.AcceptsNext m → ∃ t, body s = .done t ∧ t.pins = s.pins ∧ t.pinWrites = s.pinWrites + m

theorem Uses.andThen {m n : Nat} {f g : State → Run} (hf : Uses m f) (hg : Uses n g) :
    Uses (m + n) fun s => (f s).andThen g := by
  intro s h
  obtain ⟨t, ht, hp, hw⟩ := hf s (AcceptsNext.of_le h (Nat.le_add_right m n))
  obtain ⟨u, hu, hp', hw'⟩ := hg t (AcceptsNext.shift h hp hw)
  exact ⟨u, by simp only [ht, Run.done_andThen, hu], hp'.trans hp, by omega⟩

theorem uses_forEach {α : Type} {m : Nat} {body : α → State → Run} (h : ∀ a, Uses m (body a)) (as : List α) :
    Uses (m * as.length) (forEach as body) := by
  induction as with
  | nil => exact fun s _ => ⟨s, rfl, rfl, rfl⟩
  | cons a as ih =>
    rw [List.length_cons, Nat.mul_succ, Nat.add_comm]
    exact (h a).andThen ih

theorem uses_repeatTimes {m : Nat} {body : State → Run} (h : Uses m body) (n : Nat) :
    Uses (m * n) (repeatTimes n body) := by
  induction n with
  | zero => exact fun s _ => ⟨s, rfl, rfl, rfl⟩
  | succ n ih =>
    rw [Nat.mul_succ, Nat.add_comm]
    exact h.andThen ih

theorem uses_writeFrame : Uses 898 writeFrame := fun _ h => ⟨_, writeFrame_accepted h, rfl, rfl⟩

theorem uses_pause (d : Duration) : Uses 0 (pause d) := fun _ _ => ⟨_, rfl, rfl, rfl⟩

theorem uses_setAllOff : Uses 0 setAllOff := fun s _ => ⟨_, setAllOff_eq s, rfl, rfl⟩

theorem uses_setPair {c : Color} {rgb : Rgb} (h : parseColor c = some rgb) (b : ℚ) (i : Fin Config.numLamps) :
    Uses 0 (setPair c b i) := fun s _ =>
  ⟨(s.setLampReg i (lampValue rgb b)).setLampReg (partner i) (lampValue rgb b),
    by rw [setPair, setLamp_fin h, Run.done_andThen, setLamp_fin h], rfl, rfl⟩

theorem uses_setPairOff (i : Fin Config.numLamps) : Uses 0 (setPairOff i) := fun _ _ => ⟨_, rfl, rfl, rfl⟩

theorem uses_setEveryLamp {c : Color} {rgb : Rgb} (h : parseColor c = some rgb) (b : ℚ) : Uses 0 (setEveryLamp c b) :=
  fun s _ => ⟨_, setEveryLamp_eq h b s, rfl, rfl⟩

theorem uses_rampPair {c : Color} {rgb : Rgb} (h : parseColor c = some rgb) (ramp : Nat → ℚ) (i : Fin Config.numLamps) :
    Uses 8980 (rampPair c ramp i) :=
  uses_forEach (fun k => ((uses_setPair h (ramp k) i).andThen uses_writeFrame).andThen (uses_pause Config.animPause))
    (List.range 10)

/-- A startup with a colour that parses makes 45 frames of 898 line writes (rules R137, R144). -/
theorem uses_startup {c : Color} {rgb : Rgb} (h : parseColor c = some rgb) (b : ℚ) : Uses 40410 (startup c b) :=
  ((uses_forEach (fun i => ((uses_rampPair h (rampUp b) i).andThen (uses_setPair h b i)).andThen uses_writeFrame)
    startupPairs).andThen uses_setAllOff).andThen uses_writeFrame

/-- A shutdown with a colour that parses makes 45 frames of 898 line writes (rules R141, R144). -/
theorem uses_shutdown {c : Color} {rgb : Rgb} (h : parseColor c = some rgb) (b : ℚ) : Uses 40410 (shutdown c b) := by
  have pairs := uses_forEach
    (fun i => ((uses_rampPair h (rampDown b) i).andThen (uses_setPairOff i)).andThen uses_writeFrame) shutdownPairs
  have release : Uses 0 pinRelease := fun _ _ => ⟨_, rfl, rfl, rfl⟩
  exact (((uses_setEveryLamp h b).andThen uses_writeFrame).andThen pairs).andThen release

/-- A repetition of a flash with valid operands makes two frames of 898 line writes (rules R139, R144). -/
theorem uses_flashOnce {c : Color} {rgb : Rgb} (h : parseColor c = some rgb) (i : Fin Config.numLamps) (b : ℚ)
    (d : Duration) : Uses 1796 (flashOnce (i.val : Int) c b d) := by
  have on : Uses 0 (setLamp (i.val : Int) c b) := fun s _ => ⟨_, setLamp_fin h i b s, rfl, rfl⟩
  have off : Uses 0 fun s => match lampIndex (i.val : Int) with
      | some i => setOff i s
      | none => .raised .indexOutOfRange s := by
    simp only [lampIndex_fin]
    exact fun _ _ => ⟨_, rfl, rfl, rfl⟩
  exact on.andThen (uses_writeFrame.andThen ((uses_pause d).andThen (off.andThen (uses_writeFrame.andThen (uses_pause d)))))

end Sys2Proof.Machine
end

