-- ==== Sys2Proof/Laws/Decode.lean ====
section
/-! SUPPORT. What the decoder's and the encoder's parts do: taking a field that was put, the two fixed-point readings, the opcode map. -/

namespace Sys2Proof

theorem takeBytes_append (xs ys : List Byte) : takeBytes xs.length (xs ++ ys) = some (xs, ys) := by
  induction xs with
  | nil => rfl
  | cons x xs ih => simp [takeBytes, ih]

/-- What `takeBytes` took and what it left is what it was given. -/
theorem takeBytes_some {n : Nat} {bs xs ys : List Byte} (h : takeBytes n bs = some (xs, ys)) :
    bs = xs ++ ys ∧ xs.length = n := by
  induction n generalizing bs xs with
  | zero => simp_all [takeBytes]
  | succ n ih =>
    cases bs with
    | nil => simp [takeBytes] at h
    | cons b bs =>
      simp only [takeBytes, Option.map_eq_some_iff, Prod.exists, Prod.mk.injEq] at h
      obtain ⟨f, r, hf, rfl, rfl⟩ := h
      obtain ⟨rfl, rfl⟩ := ih hf
      simp

/-- There are not enough bytes. -/
theorem takeBytes_none {n : Nat} {bs : List Byte} : takeBytes n bs = none ↔ bs.length < n := by
  induction n generalizing bs with
  | zero => simp [takeBytes]
  | succ n ih =>
    cases bs with
    | nil => simp [takeBytes]
    | cons b bs => simp [takeBytes, ih]

theorem beBytes_length (n v : Nat) : (beBytes n v).length = n := by
  induction n with
  | zero => rfl
  | succ n ih => simp [beBytes, ih]

theorem opcodeOf_byte (o : Opcode) : opcodeOf o.byte = some o := by cases o <;> rfl

/-- The opcode map is one-to-one (rule R63). -/
theorem opcodeOf_some {b : Byte} {o : Opcode} (h : opcodeOf b = some o) : b = o.byte := by
  revert h
  simp only [opcodeOf, opcodeTable, List.lookup]
  repeat' split
  all_goals
    intro h
    first
    | (cases h; simp_all [Opcode.byte])
    | cases h

theorem putColor_length (c : Color) : (putColor c).length = c.length + 1 := rfl

theorem putBright_length (b : Brightness) : (putBright b).length = 4 := beBytes_length 4 _

theorem putLed_length (l : Int) : (putLed l).length = 1 := rfl

end Sys2Proof
end

