-- ==== Sys2Proof/Laws/Frame.lean ====
section
/-! SUPPORT. The frame in closed form is the frame that the serializer writes (rule R119): the 898 positions taken apart into the
start frame, the eight packets and the end frame. -/

namespace Sys2Proof.Machine

open Sys2Proof

theorem flatMap_congr_mem {α β : Type} {l : List α} {f g : α → List β} (h : ∀ a ∈ l, f a = g a) :
    l.flatMap f = l.flatMap g := by
  rw [List.flatMap, List.flatMap, List.map_congr_left h]

set_option maxRecDepth 20000 in
/-- The 898 positions of a frame: a hold and 32 pulses, 256 bits, a hold and 32 pulses. -/
theorem framePositions {α : Type} (f : Nat → α) : (List.range 898).map f =
    f 0 :: ((List.range 32).flatMap fun k => [f (1 + 2 * k), f (2 + 2 * k)]) ++
      ((List.range 256).flatMap fun k => [f (65 + 3 * k), f (66 + 3 * k), f (67 + 3 * k)]) ++
      f 833 :: ((List.range 32).flatMap fun k => [f (834 + 2 * k), f (835 + 2 * k)]) := rfl

/-- The 256 bits between the framing parts: eight lamps of four bytes of eight bits (rule R118). -/
theorem packetPositions {α : Type} (g : Nat → List α) : (List.range 256).flatMap g =
    (List.finRange 8).flatMap fun i => (List.range 4).flatMap fun j => (List.range 8).flatMap fun p =>
      g (32 * i.val + 8 * j + p) := by
  have h : List.range 256 = (List.finRange 8).flatMap fun i => (List.range 4).flatMap fun j =>
      (List.range 8).map fun p => 32 * i.val + 8 * j + p := by decide +kernel
  rw [h]
  simp only [List.flatMap_assoc, List.flatMap_map]

/-- The bits of a frame with the constants at the values that rule R118 writes. -/
theorem frameBit_eq (st : Strip) (q : Nat) : frameBit st q =
    if q < 32 then false
    else if h : q < 288 then
      (frameByte st ⟨(q - 32) / 32, show (q - 32) / 32 < 8 by omega⟩ ((q - 32) % 32 / 8)).getLsbD (7 - (q - 32) % 8)
    else true := rfl

/-- The bit at a position between the framing parts (rule R118). -/
theorem frameBit_packet (st : Strip) (i : Fin 8) (j p : Nat) (hj : j < 4) (hp : p < 8) :
    frameBit st (32 + (32 * i.val + 8 * j + p)) = (frameByte st i j).getLsbD (7 - p) := by
  have hi := i.isLt
  rw [frameBit_eq, if_neg (by omega), dif_pos (by omega)]
  have h : (⟨(32 + (32 * i.val + 8 * j + p) - 32) / 32,
      by show (32 + (32 * i.val + 8 * j + p) - 32) / 32 < 8; omega⟩ : Fin Config.numLamps) = i := by
    apply Fin.ext
    show (32 + (32 * i.val + 8 * j + p) - 32) / 32 = i.val
    omega
  rw [h]
  congr 1
  · congr 1; omega
  · omega

/-- The three events of a bit between the framing parts (rule R119). -/
theorem frameEvent_bit (st : Strip) (k : Nat) (hk : k < 256) :
    [frameEvent st (65 + 3 * k), frameEvent st (66 + 3 * k), frameEvent st (67 + 3 * k)] =
      (bitWrites (frameBit st (32 + k))).map LineWrite.event := by
  have h1 : (66 + 3 * k - 65) % 3 = 1 := by omega
  have h2 : (67 + 3 * k - 65) % 3 = 2 := by omega
  simp [frameEvent, bitWrites, pulseWrites, LineWrite.event, h1, h2, show 65 + 3 * k ≤ 832 by omega,
    show 66 + 3 * k ≤ 832 by omega, show 67 + 3 * k ≤ 832 by omega, show ¬ 65 + 3 * k ≤ 64 by omega,
    show ¬ 66 + 3 * k ≤ 64 by omega, show ¬ 67 + 3 * k ≤ 64 by omega]

set_option maxRecDepth 20000 in
/-- The events of the closed form are the line writes of the serializer (rules R117, R119). -/
theorem frameEvents_eq (st : Strip) : frameEvents st = (frameLineWrites st).map LineWrite.event := by
  have start : ((List.range 32).flatMap fun k => [frameEvent st (1 + 2 * k), frameEvent st (2 + 2 * k)]) =
      (List.range 32).flatMap fun _ => [.write .clk true, .write .clk false] := by
    refine flatMap_congr_mem fun k hk => ?_
    have := List.mem_range.mp hk
    simp [frameEvent, show (1 + 2 * k) % 2 = 1 by omega, show (2 + 2 * k) % 2 = 0 by omega,
      show 1 + 2 * k ≤ 64 by omega, show 2 + 2 * k ≤ 64 by omega]
  have finish : ((List.range 32).flatMap fun k => [frameEvent st (834 + 2 * k), frameEvent st (835 + 2 * k)]) =
      (List.range 32).flatMap fun _ => [.write .clk true, .write .clk false] := by
    refine flatMap_congr_mem fun k hk => ?_
    simp [frameEvent, show ¬ 834 + 2 * k ≤ 832 by omega, show ¬ 835 + 2 * k ≤ 832 by omega,
      show ¬ 834 + 2 * k ≤ 64 by omega, show ¬ 835 + 2 * k ≤ 64 by omega, show ¬ 834 + 2 * k = 833 by omega,
      show ¬ 835 + 2 * k = 833 by omega, show (835 + 2 * k - 834) % 2 = 1 by omega]
  have packet : ∀ i ∈ List.finRange 8, ((List.range 4).flatMap fun j => (List.range 8).flatMap fun p =>
      [frameEvent st (65 + 3 * (32 * i.val + 8 * j + p)), frameEvent st (66 + 3 * (32 * i.val + 8 * j + p)),
        frameEvent st (67 + 3 * (32 * i.val + 8 * j + p))]) = (packetWrites st[i]).map LineWrite.event := by
    intro i _
    have byte : ∀ j ∈ List.range 4, ((List.range 8).flatMap fun p =>
        [frameEvent st (65 + 3 * (32 * i.val + 8 * j + p)), frameEvent st (66 + 3 * (32 * i.val + 8 * j + p)),
          frameEvent st (67 + 3 * (32 * i.val + 8 * j + p))]) =
        (byteWrites (frameByte st i j)).map LineWrite.event := by
      intro j hj
      have hj := List.mem_range.mp hj
      have bit : ∀ p ∈ List.range 8, [frameEvent st (65 + 3 * (32 * i.val + 8 * j + p)),
          frameEvent st (66 + 3 * (32 * i.val + 8 * j + p)), frameEvent st (67 + 3 * (32 * i.val + 8 * j + p))] =
          (bitWrites ((frameByte st i j).getLsbD (7 - p))).map LineWrite.event := by
        intro p hp
        have hp := List.mem_range.mp hp
        have hi := i.isLt
        rw [frameEvent_bit st _ (by omega), frameBit_packet st i j p hj hp]
      rw [flatMap_congr_mem bit]
      rfl
    rw [flatMap_congr_mem byte]
    rfl
  rw [frameEvents, Config.derived_constants.2.2, framePositions, packetPositions, start, finish, flatMap_congr_mem packet]
  rfl

end Sys2Proof.Machine
end

