-- ==== Sys2Proof/Laws/PerInstr.lean ====
section
/-! SUPPORT. Statements about every instruction as syntax, one lemma per constructor. EncodedLength: a packet begins with its command's
opcode byte, which selects that command (rule R63), and is as long as its format says (rule R71). -/

namespace Sys2Proof.Laws.EncodedLength

open Sys2Proof

/-- A command's packet begins with the opcode byte that selects it and has the length of its format. -/
def Statement (i : Instr) : Prop :=
  (encode i).length = i.packetLength ∧ (encode i).head? = some i.opcode.byte ∧ opcodeOf i.opcode.byte = some i.opcode

theorem init (color : Color) (brightness : Brightness) : Statement (.init color brightness) := by
  refine ⟨?_, rfl, rfl⟩
  simp [encode, putOperands, Instr.packetLength, putColor_length, putBright_length]; omega

theorem set (led : Int) (color : Color) (brightness : Brightness) : Statement (.set led color brightness) := by
  refine ⟨?_, rfl, rfl⟩
  simp [encode, putOperands, Instr.packetLength, putColor_length, putBright_length, putLed_length]; omega

theorem setall (color : Color) (brightness : Brightness) : Statement (.setall color brightness) := by
  refine ⟨?_, rfl, rfl⟩
  simp [encode, putOperands, Instr.packetLength, putColor_length, putBright_length]; omega

theorem showFrame : Statement .showFrame := ⟨rfl, rfl, rfl⟩

theorem flash (led : Int) (color : Color) (brightness : Brightness) (times : Nat) (interval : Duration) :
    Statement (.flash led color brightness times interval) := by
  refine ⟨?_, rfl, rfl⟩
  simp [encode, putOperands, Instr.packetLength, putColor_length, putBright_length, putLed_length, beBytes_length]; omega

theorem close (color : Color) (brightness : Brightness) : Statement (.close color brightness) := by
  refine ⟨?_, rfl, rfl⟩
  simp [encode, putOperands, Instr.packetLength, putColor_length, putBright_length]; omega

end Sys2Proof.Laws.EncodedLength
end

