-- ==== Sys2Proof/Laws/Step.lean ====
section
/-! SUPPORT. What one step can do (rules R61, R70, R72, R190), said once: the strikes and the commands they are counted in, and the
inversion of `step`. -/

namespace Sys2Proof.Machine

open Sys2Proof

/-! ### The strikes still to come -/

@[simp] theorem passCommand_nil : passCommand [] = [] := rfl

@[simp] theorem passCommand_cons (k : ResetStrike) (later : List ResetStrike) :
    passCommand (k :: later) = { k with commands := k.commands - 1 } :: later := rfl

/-- A command put ahead of the strikes and then begun leaves them as they were. -/
@[simp] theorem passCommand_expectCommand (ks : List ResetStrike) : passCommand (expectCommand ks) = ks := by
  cases ks <;> rfl

@[simp] theorem dueStrike_of_nil {s : State} (h : s.resets = []) : s.dueStrike = none := by simp [State.dueStrike, h]

theorem dueStrike_some {s : State} {k : ResetStrike} {later : List ResetStrike} :
    s.dueStrike = some (k, later) ↔ s.resets = k :: later ∧ k.commands = 0 := by
  unfold State.dueStrike
  cases s.resets with
  | nil => simp
  | cons j js =>
    by_cases h : j.commands = 0
    · simp only [h, if_true, Option.some.injEq, Prod.mk.injEq, List.cons.injEq]
      exact ⟨fun ⟨e, l⟩ => ⟨⟨e, l⟩, e ▸ h⟩, And.left⟩
    · simp only [h, if_false, reduceCtorEq, List.cons.injEq, false_iff]
      exact fun ⟨⟨e, _⟩, k0⟩ => h (e ▸ k0)

/-- No strike falls in a command that is put at the head of the stream. -/
@[simp] theorem dueStrike_prependCommand (s : State) (bs : List Byte) : (s.prependCommand bs).dueStrike = none := by
  simp only [State.dueStrike, State.prependCommand_resets]
  cases s.resets <;> simp [expectCommand]

/-! ### A command, and what becomes of one that a strike abandons -/

theorem runCommand_of_none {s : State} (h : s.dueStrike = none) (run : State → Host.Outcome State Fault Refusal)
    (rest : List Byte) : runCommand run rest s = run (s.take rest) := by
  simp [runCommand, h]

theorem runCommand_of_some {s : State} {k : ResetStrike} {later : List ResetStrike} (h : s.dueStrike = some (k, later))
    (run : State → Host.Outcome State Fault Refusal) (rest : List Byte) :
    runCommand run rest s = abandonCommand k later s (run (s.take rest)) := by
  simp [runCommand, h]

/-- Everything a command can come to: what it comes to by itself, or the strike that falls in it, with some of its line writes made. -/
theorem runCommand_next {run : State → Host.Outcome State Fault Refusal} {rest : List Byte} {s t : State}
    (h : runCommand run rest s = .next t) : run (s.take rest) = .next t ∨
      ∃ k later u, s.resets = k :: later ∧ k.commands = 0 ∧ run (s.take rest) = .next u ∧
        t = applyReset { s with pinWrites := s.pinWrites + min k.writes (u.pinWrites - s.pinWrites) } k later := by
  cases hd : s.dueStrike with
  | none => exact .inl (by rwa [runCommand_of_none hd] at h)
  | some p =>
    obtain ⟨k, later⟩ := p
    obtain ⟨hr, hk⟩ := dueStrike_some.mp hd
    rw [runCommand_of_some hd] at h
    cases hu : run (s.take rest) with
    | next u =>
      rw [hu] at h
      exact .inr ⟨k, later, u, hr, hk, rfl, (Host.Outcome.next.inj h).symm⟩
    | fault f => rw [hu] at h; cases h
    | refused f => rw [hu] at h; cases h

/-- Everything a step can do: run the decoded command, answer an undefined byte, reset the block, or wait. -/
theorem step_cases {s t : State} (h : step s = .next t) :
    (∃ i rest, decode s.input = .packet i rest ∧ exec i (s.take rest) = .next t) ∨
    (∃ op rest, decode s.input = .illegal op rest ∧ t = takeFault .illegalCommand (s.take rest)) ∨
    (∃ n k later, s.resets = k :: later ∧ t = applyReset { s with pinWrites := s.pinWrites + n } k later) ∨
    (decode s.input = .incomplete ∧ s.resets = [] ∧ t = s) := by
  unfold step at h
  split at h
  · rename_i i rest hd
    rcases runCommand_next h with h | ⟨k, later, u, hr, -, -, rfl⟩
    · exact .inl ⟨i, rest, hd, h⟩
    · exact .inr (.inr (.inl ⟨_, k, later, hr, rfl⟩))
  · rename_i op rest hd
    rcases runCommand_next h with h | ⟨k, later, u, hr, -, -, rfl⟩
    · exact .inr (.inl ⟨op, rest, hd, (Host.Outcome.next.inj h).symm⟩)
    · exact .inr (.inr (.inl ⟨_, k, later, hr, rfl⟩))
  · rename_i hd
    have h := (Host.Outcome.next.inj h).symm
    unfold awaitInput at h
    split at h
    · exact .inr (.inr (.inr ⟨hd, by assumption, h⟩))
    · exact .inr (.inr (.inl ⟨0, _, _, by assumption, h⟩))

end Sys2Proof.Machine
end

