-- ==== Sys2Proof/Tests/Slice0.lean ====
section
/-! SUPPORT. Tests of the model, with their values from 95_test_vectors.md and the encoding tables of 30_encoding.md, and for every statement
of Certificates/Slice0/Obligations.lean that has hypotheses a state and operands that meet them. -/

namespace Sys2Proof.Tests

open Sys2Proof Sys2Proof.Machine

/-! ### Small states and operands -/

/-- The brightness 1.0, `00 01 00 00` (rule R66). -/
def one : Brightness := Brightness.ofField 65536

/-- The brightness 1/2, `00 00 80 00` (rule R66). -/
def half : Brightness := Brightness.ofField 32768

/-- The brightness 3/2, `00 01 80 00` (rule R66). -/
def threeHalves : Brightness := Brightness.ofField 98304

/-- The colour `FF8000` of V-PARSE-2. -/
def orange : Color := [0x46, 0x46, 0x38, 0x30, 0x30, 0x30]

/-- The source's bad colour `GGGGGG` of V-PARSE-9. -/
def badColor : Color := [0x47, 0x47, 0x47, 0x47, 0x47, 0x47]

/-- An error of the collaborator. -/
def anError : PinErr := ⟨1, 2, 3, 4⟩

/-- A collaborator that accepts a million line writes. -/
def willing : PinPlan := ⟨1000000, []⟩

/-- A collaborator that refuses the line write numbered `n`. -/
def refusing (n : Nat) : PinPlan := ⟨1000000, [(n, anError)]⟩

/-- A state in a mode, with a collaborator, owning the lines if the mode is `Active`. -/
def stateIn (m : Mode) (p : PinPlan) : State := { State.reset with dstate := m, own := m == .active, pins := p }

/-- `Uninitialized`, every line write accepted. -/
def fresh : State := stateIn .uninitialized willing

/-- `Active`, every line write accepted. -/
def active : State := stateIn .active willing

/-- `Closed`, as a completed `CLOSE` leaves it but for the length of the trace. -/
def shut : State := { stateIn .closed willing with trace := [.rel] }

/-- `Active`, with lamp 3 as in V-FRAME-2. -/
def oneLamp : State := active.setLampReg 3 ⟨0x80, 0x40, 0x00⟩

/-- A fresh collaborator that is settled far enough accepts. -/
theorem accepts {s : State} {n : Nat} (hw : s.pinWrites = 0) (hp : s.pins = willing) (hn : n ≤ 1000000) : s.AcceptsNext n :=
  acceptsNext_of_settled (by rw [hp]; rfl) (by rw [hw, hp, Nat.zero_add]; exact hn)

/-- A fresh collaborator that refuses one line write refuses it, and none before it. -/
theorem refuses {s : State} {n : Nat} (hw : s.pinWrites = 0) (hp : s.pins = refusing n) (hn : n < 1000000) :
    s.RefusesAfter n anError := by
  constructor
  · intro k hk
    have h : (k == n) = false := by simp; omega
    simp [PinPlan.answer, hw, hp, refusing, h, List.lookup]
    omega
  · simp [PinPlan.answer, hw, hp, refusing, hn]

theorem test_parse_white : parseColor Color.white = some ⟨255, 255, 255⟩ := by decide

theorem test_parse_bad : parseColor badColor = none := by decide

/-! ### Operands: V-PARSE, V-SCALE, V-INIT-1 -/

theorem test_parse_red_first : parseColor [0x31, 0x32, 0x33, 0x34, 0x35, 0x36] = some ⟨18, 52, 86⟩ := by decide

theorem test_parse_both_cases : parseColor [0x30, 0x61, 0x31, 0x42, 0x32, 0x63] = some ⟨10, 27, 44⟩ := by decide

theorem test_parse_refuses_other_lengths :
    parseColor [] = none ∧ parseColor [0x31, 0x32, 0x33, 0x34, 0x35] = none ∧
      parseColor [0x31, 0x32, 0x33, 0x34, 0x35, 0x36, 0x37] = none := by decide

theorem test_parse_refuses_bordering_characters :
    parseColor [0x40, 0x41, 0x46, 0x47, 0x61, 0x67] = none ∧ parseColor [0x46, 0x46, 0x20, 0x30, 0x30, 0x30] = none ∧
      parseColor [0x46, 0x46, 0x46, 0x46, 0x46, 0x00] = none := by decide

theorem test_scale_ties_go_up :
    scale 255 (1 / 2) = 128 ∧ scale 1 (1 / 2) = 1 ∧ scale 5 (1 / 2) = 3 ∧ scale 254 (1 / 2) = 127 := by decide +kernel

theorem test_scale_below_half : scale 1 (1 / 4) = 0 ∧ scale 1 (49 / 100) = 0 ∧ scale 100 (1 / 3) = 33 := by decide +kernel

theorem test_scale_saturates : scale 200 (3 / 2) = 255 ∧ scale 1 255 = 255 ∧ scale 1 256 = 255 := by decide +kernel

theorem test_scale_packet_brightness :
    scale 255 (Brightness.ofField 0x81).val = 1 ∧ scale 255 (Brightness.ofField 0x80).val = 0 ∧
      scale 255 (Brightness.ofField 0xFFFFFFFF).val = 255 := by decide +kernel

theorem test_ramp_up_indices :
    (List.range 10).map (fun k => scale 255 (rampUp 1 k)) = [0, 26, 51, 77, 102, 128, 153, 179, 204, 230] := by decide +kernel

theorem test_ramp_down_indices :
    (List.range 10).map (fun k => scale 255 (rampDown 1 k)) = [255, 230, 204, 179, 153, 128, 102, 77, 51, 26] := by
  decide +kernel

theorem test_gamma_sq :
    [0, 1, 13, 15, 16, 26, 38, 51, 64, 77, 89, 102, 115, 128, 153, 179, 204, 230, 254, 255].map Config.gammaSq.get =
      [0, 0, 0, 0, 1, 2, 5, 10, 16, 23, 31, 40, 51, 64, 91, 125, 163, 207, 253, 255] := by decide

/-! ### Decoding: words written out from the encoding tables, V-DEC -/

theorem test_decode_show : decode [0x04] = .packet .showFrame [] := by decide

theorem test_decode_set :
    decode [0x02, 0x03, 0x06, 0x46, 0x46, 0x38, 0x30, 0x30, 0x30, 0x00, 0x00, 0x80, 0x00] =
      .packet (.set 3 orange half) [] := by decide

theorem test_decode_setall : decode [0x03, 0x00, 0x00, 0x01, 0x00, 0x00, 0x04] = .packet (.setall [] one) [0x04] := by decide

theorem test_decode_flash :
    decode [0x05, 0x03, 0x06, 0x46, 0x46, 0x30, 0x30, 0x30, 0x30, 0x00, 0x01, 0x00, 0x00, 0x00, 0x02, 0x00, 0x00, 0x27, 0x10] =
      .packet (.flash 3 Color.red one 2 (Duration.ofField 10000)) [] := by decide

theorem test_decode_init :
    decode [0x01, 0x06, 0x46, 0x46, 0x46, 0x46, 0x46, 0x46, 0x00, 0x01, 0x80, 0x00] =
      .packet (.init Color.white threeHalves) [] := by decide

theorem test_decode_close :
    decode [0x06, 0x06, 0x46, 0x46, 0x46, 0x46, 0x46, 0x46, 0x00, 0x00, 0x00, 0x01] =
      .packet (.close Color.white (Brightness.ofField 1)) [] := by decide

theorem test_decode_illegal :
    decode [0x00] = .illegal 0x00 [] ∧ decode [0x07] = .illegal 0x07 [] ∧ decode [0xFF, 0x04] = .illegal 0xFF [0x04] := by
  decide

theorem test_decode_incomplete : decode [0x01, 0x06, 0x46, 0x46, 0x46] = .incomplete ∧ decode [] = .incomplete := by decide

theorem test_decode_opcode_bytes_inside_a_colour :
    decode [0x02, 0x00, 0x06, 0x46, 0x46, 0x04, 0x04, 0x04, 0x04, 0x00, 0x01, 0x00, 0x00] =
      .packet (.set 0 [0x46, 0x46, 0x04, 0x04, 0x04, 0x04] one) [] := by decide

theorem test_field_values :
    one.val = 1 ∧ half.val = 1 / 2 ∧ threeHalves.val = 3 / 2 ∧ (Brightness.ofField 0x4000).val = 1 / 4 ∧
      beNat [0x01, 0x00] = 256 ∧ (Duration.ofField 0x000F4240).val = 1000000 := by decide +kernel

theorem test_encode_set :
    encode (.set 3 orange half) = [0x02, 0x03, 0x06, 0x46, 0x46, 0x38, 0x30, 0x30, 0x30, 0x00, 0x00, 0x80, 0x00] := by
  decide +kernel

theorem test_encode_flash :
    encode (.flash 3 Color.red one 2 (Duration.ofField 10000)) =
      [0x05, 0x03, 0x06, 0x46, 0x46, 0x30, 0x30, 0x30, 0x30, 0x00, 0x01, 0x00, 0x00, 0x00, 0x02, 0x00, 0x00, 0x27, 0x10] := by
  decide +kernel

/-- The numbering of the opcode table: the first byte is bits 7..0. -/
theorem test_decodeTableWord :
    decodeTableWord 8 0x04 = some .showFrame ∧ decodeTableWord 8 0x07 = none ∧
      decodeTableWord 8 0x02 = some (.set 0 [] (Brightness.ofField 0)) ∧
      decodeTableWord 8 0x06 = some (.close [] (Brightness.ofField 0)) := by decide

/-! ### Well-formedness: a command that fails each check -/

theorem test_wellFormed_accepts :
    (Instr.set 255 orange half).wellFormed = true ∧ Instr.showFrame.wellFormed = true ∧
      (Instr.flash 0 [] one 65535 (Duration.ofField 4294967295)).wellFormed = true := by decide +kernel

theorem test_wellFormed_refuses_led :
    (Instr.set 256 orange half).wellFormed = false ∧ (Instr.set (-1) orange half).wellFormed = false := by decide +kernel

theorem test_wellFormed_refuses_long_colour :
    (Instr.init (List.replicate 256 0x46) one).wellFormed = false ∧
      (Instr.init (List.replicate 255 0x46) one).wellFormed = true := by decide +kernel

theorem test_wellFormed_refuses_brightness :
    (Instr.close Color.white ⟨1 / 10, by norm_num⟩).wellFormed = false ∧
      (Instr.setall Color.white ⟨65536, by norm_num⟩).wellFormed = false := by decide +kernel

theorem test_wellFormed_refuses_times : (Instr.flash 0 [] one 65536 (Duration.ofField 0)).wellFormed = false := by
  decide +kernel

theorem test_wellFormed_refuses_interval :
    (Instr.flash 0 [] one 1 ⟨1 / 2, by norm_num⟩).wellFormed = false := by decide +kernel

/-! ### One step of each command -/

/-- V-SET-1, for every admissible table. -/
theorem test_set_stores : ∃ t, exec (.set 3 orange half) active = .next t ∧
    t.lamp 3 = ⟨correct 128, correct 64, correct 0⟩ ∧ t.lamp 2 = LampSetting.off ∧ t.output = [0x00] ∧ t.trace = [] := by
  have hr : scale 255 half.val = 128 := by decide +kernel
  have hg : scale 128 half.val = 64 := by decide +kernel
  have hb : scale 0 half.val = 0 := by decide +kernel
  have hp : parseColor orange = some ⟨255, 128, 0⟩ := by decide
  refine ⟨_, rfl, ?_, rfl, rfl, rfl⟩
  show lampValue ⟨255, 128, 0⟩ half.val = _
  rw [lampValue, hr, hg, hb]

/-- V-SET-10: the colour is checked before the index. -/
theorem test_set_colour_before_index : ∃ t, exec (.set 8 badColor one) active = .next t ∧ t.output = [0x01] ∧
    t.strip = active.strip := ⟨_, rfl, rfl, rfl⟩

/-- V-SETALL-3: an empty colour. -/
theorem test_setall_bad_colour : ∃ t, exec (.setall [] one) oneLamp = .next t ∧ t.output = [0x01] ∧ t.strip = oneLamp.strip :=
  ⟨_, rfl, rfl, rfl⟩

/-- V-FRAME-2: the sampled bytes of a frame with one lamp lit, at lamp 3 and at the ends. -/
theorem test_frame_bytes : sampledBits .x (frameEvents oneLamp.strip) =
    (([0, 0, 0, 0, 0xFF, 0, 0, 0, 0xFF, 0, 0, 0, 0xFF, 0, 0, 0, 0xFF, 0x00, 0x40, 0x80, 0xFF, 0, 0, 0, 0xFF, 0, 0, 0,
      0xFF, 0, 0, 0, 0xFF, 0, 0, 0, 0xFF, 0xFF, 0xFF, 0xFF] : List Byte).flatMap fun v =>
        [7, 6, 5, 4, 3, 2, 1, 0].map fun p => LineLevel.driven (v.getLsbD p)) := by decide +kernel

/-- V-FRAME-2: `SHOW` sends that frame. -/
theorem test_show_sends_frame : (match exec .showFrame oneLamp with
    | .next t => decide (t.trace = frameEvents oneLamp.strip ∧ t.dat = .driven true ∧ t.clk = .driven false ∧ t.output = [0x00])
    | .fault _ => false
    | .refused _ => false) = true := by decide +kernel

/-- V-FRAME-6: the 100th write of the frame is refused. -/
theorem test_show_stops_at_a_refused_write : (match exec .showFrame { oneLamp with pins := refusing 99 } with
    | .next t => decide (t.trace.length = 99 ∧ t.clk = .x ∧ t.dat ≠ .x ∧ t.output = [0x04, 1, 2, 3, 4] ∧ t.dstate = .active)
    | .fault _ => false
    | .refused _ => false) = true := by decide +kernel

/-- V-FLASH-2: `times = 0` validates nothing. -/
theorem test_flash_zero_times : ∃ t, exec (.flash 9 [0x78, 0x79, 0x7A] one 0 (Duration.ofField 1000)) active = .next t ∧
    t.output = [0x00] ∧ t.trace = [] := ⟨_, rfl, rfl, rfl⟩

/-- V-FLASH-3 and V-PRI-6: the index fault comes before any write. -/
theorem test_flash_bad_index : ∃ t, exec (.flash 9 Color.red one 1 (Duration.ofField 1000))
    { active with pins := refusing 0 } = .next t ∧ t.output = [0x02] ∧ t.trace = [] := ⟨_, rfl, rfl, rfl⟩

/-- V-INIT-4: a bad colour leaves the block as it was. -/
theorem test_init_bad_colour : ∃ t, exec (.init [0x46, 0x46, 0x46] one) fresh = .next t ∧ t.output = [0x01] ∧
    t.dstate = .uninitialized ∧ t.own = false ∧ t.trace = [] := ⟨_, rfl, rfl, rfl, rfl, rfl⟩

/-- V-INIT-5: the very first write is refused. -/
theorem test_init_refused_at_once : ∃ t, exec (.init Color.white one) (stateIn .uninitialized (refusing 0)) = .next t ∧
    t.output = [0x04, 1, 2, 3, 4] ∧ t.trace = [] ∧ t.dat = .x ∧ t.own = false := ⟨_, rfl, rfl, rfl, rfl, rfl⟩

/-- V-CLOSE-3: a bad colour releases nothing. -/
theorem test_close_bad_colour : ∃ t, exec (.close badColor one) active = .next t ∧ t.output = [0x01] ∧ t.trace = [] ∧
    t.dstate = .active ∧ t.own = true := ⟨_, rfl, rfl, rfl, rfl, rfl⟩

/-- V-CLOSE-4. -/
theorem test_close_when_closed : ∃ t, exec (.close Color.white one) shut = .next t ∧ t.output = [0x03] ∧ t.trace = [.rel] :=
  ⟨_, rfl, rfl, rfl⟩

/-- V-PRI-3 and V-PRI-8. -/
theorem test_gate_comes_first : (∃ t, exec (.set 8 badColor one) fresh = .next t ∧ t.output = [0x05]) ∧
    ∃ t, exec (.init Color.white one) shut = .next t ∧ t.output = [0x03] := ⟨⟨_, rfl, rfl⟩, ⟨_, rfl, rfl⟩⟩

/-- V-PRI-1 and V-DEC-9: one byte is consumed. -/
theorem test_step_illegal : ∃ t, step { shut with input := [0xFF, 0x04] } = .next t ∧ t.output = [0x06] ∧ t.input = [0x04] :=
  ⟨_, rfl, rfl, rfl⟩

/-- V-RST-2: a reset leaves `Closed`. -/
theorem test_step_reset : ∃ t, step { shut with resets := [⟨5, 0, [0x04]⟩] } = .next t ∧ t.dstate = .uninitialized ∧ t.trace = [] ∧
    t.input = [0x04] := ⟨_, rfl, rfl, rfl, rfl⟩

/-- Rule R190: a strike after 100 line writes of a `SHOW` abandons it, with nothing answered and those writes made. -/
theorem test_step_strike_during_show : (match step ({ oneLamp with input := [0x04, 0x04], resets := [⟨0, 100, [0x07]⟩] } : State) with
    | .next t => decide (t.dstate = .uninitialized ∧ t.own = false ∧ t.clk = .x ∧ t.trace = [] ∧ t.output = [] ∧
        t.input = [0x07] ∧ t.resets = [] ∧ t.pinWrites = 100)
    | .fault _ => false
    | .refused _ => false) = true := by decide +kernel

/-- A strike counted in a later command leaves this one alone and is one command nearer. -/
theorem test_step_strike_later :
    ∃ t, step { active with input := [0x03, 0x00, 0x00, 0x01, 0x00, 0x00, 0x04], resets := [⟨1, 100, []⟩] } = .next t ∧ t.output = [0x01] ∧ t.input = [0x04] ∧ t.resets = [⟨0, 100, []⟩] :=
  ⟨_, rfl, rfl, rfl, rfl⟩

/-- The placed packet runs also where a strike was due, which then falls in the command after it. -/
theorem test_withFetchWord_before_a_strike :
    ∃ t, step (State.withFetchWord { State.reset with resets := [⟨0, 0, []⟩] } 8 0x03) = .next t ∧ t.output = [0x05] ∧
      t.resets = [⟨0, 0, []⟩] := ⟨_, rfl, rfl, rfl⟩

/-- Only the row's packet is placed, and the next step takes all of it. -/
theorem test_withFetchWord : ∃ t, step (State.reset.withFetchWord 8 0x03) = .next t ∧ t.input = [] ∧ t.output = [0x05] :=
  ⟨_, rfl, rfl, rfl⟩

/-! ### Witnesses: for every statement with hypotheses, a state and operands that meet them -/

theorem test_witness_ScaleRoundsHalfUpInRange : (0 : ℚ) ≤ one.val ∧ one.val ≤ 1 ∧ (0 : ℚ) ≤ 0 ∧ (0 : ℚ) ≤ 1 := by decide +kernel

theorem test_witness_RampOfPacketBrightnessIsIntegerDivision : (0 : Nat) ≤ 9 ∧ (9 : Nat) ≤ 9 := by decide

theorem test_witness_IntensityIsMonotone : ((0 : ℚ) ≤ half.val ∧ (127 : Byte).toNat ≤ (255 : Byte).toNat) ∧ half.val ≤ one.val := by
  decide +kernel

theorem test_witness_GammaTableIsMonotone : (0 : Byte).toNat ≤ (255 : Byte).toNat ∧ (254 : Byte).toNat ≤ (255 : Byte).toNat := by decide

theorem test_witness_ParseColorReadsSixHexDigits : parseColor orange = some ⟨255, 128, 0⟩ ∧ SpellsDigit 0x66 15 ∧ SpellsDigit 0x46 15 ∧
    SpellsDigit 0x39 9 ∧ SpellsDigit 0x41 10 ∧ SpellsDigit 0x61 10 ∧ ¬ SpellsDigit 0x47 16 := by decide

theorem test_witness_ClockPulseIsHighThenLow : active.AcceptsNext 2 ∧ (stateIn .active (refusing 0)).RefusesAfter 0 anError ∧
    (stateIn .active (refusing 1)).RefusesAfter 1 anError :=
  ⟨accepts rfl rfl (by decide), refuses rfl rfl (by decide), refuses rfl rfl (by decide)⟩

theorem test_witness_SendBitWritesDataThenPulses : active.AcceptsNext 3 := accepts rfl rfl (by decide)

theorem test_witness_SendByteIsMsbFirst : active.AcceptsNext 24 := accepts rfl rfl (by decide)

theorem test_witness_LampPacketIsMarkerBlueGreenRed : (active.setLampReg 7 ⟨0x12, 0x34, 0x56⟩).AcceptsNext 96 ∧
    (active.setLampReg 7 ⟨0x12, 0x34, 0x56⟩).lamp 7 = ⟨0x12, 0x34, 0x56⟩ := ⟨accepts rfl rfl (by decide), rfl⟩

theorem test_witness_ShowSendsTheFrame : oneLamp.dstate = .active ∧ oneLamp.AcceptsNext 898 := ⟨rfl, accepts rfl rfl (by decide)⟩

theorem test_witness_ShowStopsAtARefusedWrite : (stateIn .active (refusing 0)).dstate = .active ∧ 0 < 898 ∧ 897 < 898 ∧
    (stateIn .active (refusing 0)).RefusesAfter 0 anError ∧ (stateIn .active (refusing 897)).RefusesAfter 897 anError :=
  ⟨rfl, by decide, by decide, refuses rfl rfl (by decide), refuses rfl rfl (by decide)⟩

theorem test_witness_FrameDeterminesTheStrip : frameBits Strip.off = frameBits (Vector.replicate 8 ⟨0, 0, 0⟩) ∧
    frameEvents Strip.off = frameEvents (Vector.replicate 8 ⟨0, 0, 0⟩) := ⟨rfl, rfl⟩

/-- Two states that share only the strip and the mode. -/
theorem test_witness_FrameIsAFunctionOfStripAlone : oneLamp.dstate = .active ∧
    { oneLamp with trace := [.write .data true], dat := .driven true, status := .fault .indexOutOfRange }.dstate = .active ∧
    oneLamp.AcceptsNext 1796 ∧
    { oneLamp with trace := [.write .data true], dat := .driven true, status := .fault .indexOutOfRange }.AcceptsNext 898 :=
  ⟨rfl, rfl, accepts rfl rfl (by decide), accepts rfl rfl (by decide)⟩

theorem test_witness_SetStoresTheScaledColour : active.dstate = .active ∧ parseColor orange = some ⟨255, 128, 0⟩ ∧
    exec (.set 7 orange threeHalves) active = exec (.set (7 : Fin Config.numLamps).val orange threeHalves) active :=
  ⟨rfl, by decide, rfl⟩

theorem test_witness_SetFaultsOnColourThenIndex : active.dstate = .active ∧ parseColor badColor = none ∧
    parseColor Color.white = some ⟨255, 255, 255⟩ ∧ ((-1 : Int) < 0 ∨ 7 < (-1 : Int)) ∧ ((8 : Int) < 0 ∨ 7 < (8 : Int)) :=
  ⟨rfl, test_parse_bad, test_parse_white, by decide, by decide⟩

theorem test_witness_SetNeverRaisesInTheGuaranteedRange : active.dstate = .active ∧ parseColor Color.white = some ⟨255, 255, 255⟩ ∧
    one.val ≤ 1 ∧ (Brightness.ofField 0).val ≤ 1 := by decide +kernel

theorem test_witness_SetallWritesAllOrNothing : oneLamp.dstate = .active ∧ parseColor orange = some ⟨255, 128, 0⟩ ∧
    parseColor badColor = none := ⟨rfl, by decide, test_parse_bad⟩

theorem test_witness_SetallEqualsEightSets : oneLamp.dstate = .active ∧ parseColor badColor = none ∧
    parseColor orange = some ⟨255, 128, 0⟩ := ⟨rfl, test_parse_bad, by decide⟩

theorem test_witness_SetAndSetallProduceNoOutput : (Instr.set 8 orange one).opcode = .set ∧ (Instr.setall orange one).opcode = .setall ∧
    (∃ t, exec (.set 8 orange one) active = .next t) ∧ ∃ t, exec (.setall orange one) active = .next t :=
  ⟨rfl, rfl, ⟨_, rfl⟩, ⟨_, rfl⟩⟩

theorem test_witness_SetsToDifferentLampsCommute : (0 : Int) ≠ 7 ∧ active.dstate = .active ∧ parseColor orange = some ⟨255, 128, 0⟩ :=
  ⟨by decide, rfl, by decide⟩

theorem test_witness_SetIsPublishedByTheNextShow : active.dstate = .active ∧ parseColor orange = some ⟨255, 128, 0⟩ ∧
    active.AcceptsNext 898 := ⟨rfl, by decide, accepts rfl rfl (by decide)⟩

theorem test_witness_SetAndSetallFrame : (∃ t, exec (.set 3 orange one) active = .next t) ∧ ((2 : Fin Config.numLamps).val : Int) ≠ 3 ∧
    ∃ t, exec (.setall badColor one) active = .next t := ⟨⟨_, rfl⟩, by decide, ⟨_, rfl⟩⟩

theorem test_witness_InitRunsStartupAndEntersActive : fresh.dstate = .uninitialized ∧
    parseColor Color.white = some ⟨255, 255, 255⟩ ∧ fresh.AcceptsNext 40410 := ⟨rfl, test_parse_white, accepts rfl rfl (by decide)⟩

theorem test_witness_InitWithABadColourStaysUninitialized : fresh.dstate = .uninitialized ∧ parseColor badColor = none :=
  ⟨rfl, test_parse_bad⟩

theorem test_witness_InitStopsAtARefusedWrite : (stateIn .uninitialized (refusing 40409)).dstate = .uninitialized ∧
    parseColor Color.white = some ⟨255, 255, 255⟩ ∧ 40409 < 40410 ∧
    (stateIn .uninitialized (refusing 40409)).RefusesAfter 40409 anError ∧
    (stateIn .uninitialized (refusing 0)).RefusesAfter 0 anError :=
  ⟨rfl, test_parse_white, by decide, refuses rfl rfl (by decide), refuses rfl rfl (by decide)⟩

/-- Both for `times = 0` and for more. -/
theorem test_witness_FlashSendsOnAndOffFrames : oneLamp.dstate = .active ∧ parseColor Color.white = some ⟨255, 255, 255⟩ ∧
    oneLamp.AcceptsNext (1796 * 0) ∧ oneLamp.AcceptsNext (1796 * 2) :=
  ⟨rfl, test_parse_white, accepts rfl rfl (by decide), accepts rfl rfl (by decide)⟩

theorem test_witness_FlashValidatesOnlyWhenItRuns : active.dstate = .active ∧ 1 ≤ 1 ∧ parseColor badColor = none ∧
    parseColor Color.white = some ⟨255, 255, 255⟩ ∧ ((8 : Int) < 0 ∨ 7 < (8 : Int)) ∧ ((-1 : Int) < 0 ∨ 7 < (-1 : Int)) :=
  ⟨rfl, by decide, test_parse_bad, test_parse_white, by decide, by decide⟩

theorem test_witness_FlashStopsAtARefusedWrite : (stateIn .active (refusing 1795)).dstate = .active ∧
    parseColor Color.white = some ⟨255, 255, 255⟩ ∧ 1795 < 1796 * 1 ∧ (stateIn .active (refusing 1795)).RefusesAfter 1795 anError ∧
    (stateIn .active (refusing 0)).RefusesAfter 0 anError :=
  ⟨rfl, test_parse_white, by decide, refuses rfl rfl (by decide), refuses rfl rfl (by decide)⟩

theorem test_witness_CloseRunsShutdownAndReleases : active.dstate = .active ∧ parseColor Color.white = some ⟨255, 255, 255⟩ ∧
    active.AcceptsNext 40410 := ⟨rfl, test_parse_white, accepts rfl rfl (by decide)⟩

theorem test_witness_CloseThatFaultsStaysActive : (stateIn .active (refusing 40409)).dstate = .active ∧ parseColor badColor = none ∧
    parseColor Color.white = some ⟨255, 255, 255⟩ ∧ 40409 < 40410 ∧
    (stateIn .active (refusing 40409)).RefusesAfter 40409 anError ∧ (stateIn .active (refusing 0)).RefusesAfter 0 anError :=
  ⟨rfl, test_parse_bad, test_parse_white, by decide, refuses rfl rfl (by decide), refuses rfl rfl (by decide)⟩

theorem test_witness_InitThenCloseEndsDarkAndReleasedOnce : fresh.dstate = .uninitialized ∧
    parseColor Color.white = some ⟨255, 255, 255⟩ ∧ parseColor orange = some ⟨255, 128, 0⟩ ∧ fresh.AcceptsNext 80820 :=
  ⟨rfl, test_parse_white, by decide, accepts rfl rfl (by decide)⟩

theorem test_witness_GateRefusesOutsideTheMode : shut.dstate = .closed ∧ active.dstate = .active ∧ fresh.dstate = .uninitialized ∧
    (Instr.init badColor one).opcode = .init ∧ Instr.showFrame.opcode ≠ .init := by decide

/-- A completed `INIT` and a completed `CLOSE`. -/
theorem test_witness_completed_init_and_close :
    (∃ t, exec (.init Color.white one) fresh = .next t ∧ t.status = .ok ∧ t.dstate = .active) ∧
      ∃ t, exec (.close Color.white one) active = .next t ∧ t.status = .ok ∧ t.dstate = .closed := by
  constructor
  · obtain ⟨t, ht, -⟩ := uses_startup test_parse_white one.val { fresh.setOwn true with strip := Strip.off }
      (accepts rfl rfl (by decide))
    refine ⟨respond .ok (t.setMode .active), ?_, rfl, rfl⟩
    show execInit Color.white one fresh = _
    rw [execInit, gate_uninitialized_init rfl, Run.done_andThen, setAllOff_eq, Run.done_andThen, ht]
    rfl
  · obtain ⟨t, ht, -⟩ := uses_shutdown test_parse_white one.val active (accepts rfl rfl (by decide))
    refine ⟨respond .ok (t.setMode .closed), ?_, rfl, rfl⟩
    show execClose Color.white one active = _
    rw [execClose, gate_active rfl (by decide), Run.done_andThen, ht]
    rfl

/-- Its three parts: a mode that changes twice, completed commands, and a step that leaves `Closed`. -/
theorem test_witness_ModeMovesForwardOnly :
    (∃ t, exec (.init Color.white one) fresh = .next t ∧ t.status = .ok ∧ t.dstate ≠ fresh.dstate) ∧
      (∃ t, exec (.close Color.white one) active = .next t ∧ t.status = .ok ∧ t.dstate ≠ active.dstate) ∧
      ∃ t, step { shut with resets := [⟨0, 0, []⟩] } = .next t ∧ shut.dstate = .closed ∧ t.dstate ≠ .closed := by
  obtain ⟨⟨t, ht, hs, hd⟩, u, hu, hs', hd'⟩ := test_witness_completed_init_and_close
  refine ⟨⟨t, ht, hs, ?_⟩, ⟨u, hu, hs', ?_⟩, _, rfl, rfl, by decide⟩
  · rw [hd]; decide
  · rw [hd']; decide

theorem test_witness_CommandsOnlyAppendToTheTrace : (∃ t, exec (.set 0 orange one) active = .next t ∧ t.status = .ok) ∧
    ∃ t, exec .showFrame (stateIn .active (refusing 1)) = .next t ∧ t.status = .fault (.pinError anError) ∧
      t.trace = [.write .data false] := ⟨⟨_, rfl, rfl⟩, ⟨_, rfl, rfl, rfl⟩⟩

theorem test_witness_ShowAndFlashFrame : (∃ t, exec .showFrame (stateIn .active (refusing 1)) = .next t) ∧
    (∃ t, exec (.flash 3 orange one 1 (Duration.ofField 1)) (stateIn .active (refusing 0)) = .next t) ∧
    ((2 : Fin Config.numLamps).val : Int) ≠ 3 := ⟨⟨_, rfl⟩, ⟨_, rfl⟩, by decide⟩

/-- Each command, refused by the gate and not. -/
theorem test_witness_InitAndCloseFrame :
    ((∃ t, exec (.init Color.white one) fresh = .next t ∧ t.status = .ok) ∧ fresh.dstate = .uninitialized) ∧
      ((∃ t, exec (.init Color.white one) active = .next t) ∧ active.dstate ≠ .uninitialized) ∧
      ((∃ t, exec (.close Color.white one) active = .next t ∧ t.status = .ok) ∧ active.dstate = .active) ∧
      ((∃ t, exec (.close badColor one) active = .next t ∧ t.status ≠ .ok) ∧ active.dstate = .active) ∧
      (∃ t, exec (.close Color.white one) shut = .next t) ∧ shut.dstate ≠ .active := by
  obtain ⟨⟨t, ht, hs, -⟩, u, hu, hs', -⟩ := test_witness_completed_init_and_close
  exact ⟨⟨⟨t, ht, hs⟩, rfl⟩, ⟨⟨_, rfl⟩, by decide⟩, ⟨⟨u, hu, hs'⟩, rfl⟩, ⟨⟨_, rfl, by decide⟩, rfl⟩, ⟨_, rfl⟩, by decide⟩

theorem test_witness_OnlyThreeCommandsInActiveAndInitTouchTheLines :
    (∃ t, exec .showFrame (stateIn .active (refusing 1)) = .next t ∧ t.trace ≠ []) ∧
      ∃ t, exec (.init Color.white one) (stateIn .uninitialized (refusing 0)) = .next t ∧ t.pinWrites ≠ 0 :=
  ⟨⟨_, rfl, by decide⟩, ⟨_, rfl, by decide⟩⟩

/-- Every command, completed with `Ok`. -/
theorem test_witness_CompletedCommandsHaveTheirCounts :
    (∃ t, exec (.init Color.white one) fresh = .next t ∧ t.status = .ok) ∧
      (∃ t, exec (.set 0 orange one) active = .next t ∧ t.status = .ok) ∧
      (∃ t, exec (.setall orange one) active = .next t ∧ t.status = .ok) ∧
      (∃ t, exec .showFrame active = .next t ∧ t.status = .ok) ∧
      (∃ t, exec (.flash 0 orange one 3 (Duration.ofField 1)) active = .next t ∧ t.status = .ok) ∧
      ∃ t, exec (.close Color.white one) active = .next t ∧ t.status = .ok := by
  obtain ⟨⟨t, ht, hs, -⟩, u, hu, hs', -⟩ := test_witness_completed_init_and_close
  refine ⟨⟨t, ht, hs⟩, ⟨_, rfl, rfl⟩, ⟨_, rfl, rfl⟩, ?_, ?_, ⟨u, hu, hs'⟩⟩
  · obtain ⟨v, hv, -⟩ := uses_writeFrame active (accepts rfl rfl (by decide))
    refine ⟨respond .ok v, ?_, rfl⟩
    show execShow active = _
    rw [execShow, gate_active rfl (by decide), Run.done_andThen, hv]
    rfl
  · obtain ⟨v, hv, -⟩ := uses_repeatTimes (uses_flashOnce (c := orange) (rgb := ⟨255, 128, 0⟩) (by decide) 0 one.val
      (Duration.ofField 1)) 3 active (accepts rfl rfl (by decide))
    refine ⟨respond .ok v, ?_, rfl⟩
    show execFlash ((0 : Fin Config.numLamps).val : Int) orange one 3 (Duration.ofField 1) active = _
    rw [execFlash, gate_active rfl (by decide), Run.done_andThen, hv]
    rfl

theorem test_witness_OperandFaultsLeaveNothingBehind :
    (∃ t, exec (.init badColor one) fresh = .next t ∧ t.status = .fault .invalidColorFormat) ∧
      ∃ t, exec (.flash 8 orange one 1 (Duration.ofField 1)) active = .next t ∧ t.status = .fault .indexOutOfRange ∧
        (Instr.flash 8 orange one 1 (Duration.ofField 1)).opcode ≠ .init :=
  ⟨⟨_, rfl, rfl⟩, ⟨_, rfl, rfl, by decide⟩⟩

theorem test_witness_PinErrorIsTheCollaboratorsRefusal :
    (∃ t, exec .showFrame (stateIn .active (refusing 1)) = .next t ∧ t.status = .fault (.pinError anError)) ∧
      ∃ t, exec (.set 0 orange one) active = .next t ∧ ∀ e, t.status ≠ .fault (.pinError e) :=
  ⟨⟨_, rfl, rfl⟩, ⟨_, rfl, fun _ h => nomatch h⟩⟩

theorem test_witness_DecodeOfEncodeIsTheCommand : (Instr.flash 255 orange half 65535 (Duration.ofField 1)).wellFormed = true := by
  decide +kernel

theorem test_witness_EncodeOfDecodeIsTheBytes : decode [0x03, 0x00, 0x00, 0x01, 0x00, 0x00, 0x04] =
    .packet (.setall [] one) [0x04] := by decide

theorem test_witness_PacketLengthFromTheFirstBytes : opcodeOf 0x01 = some .init ∧ opcodeOf 0x02 = some .set ∧
    opcodeOf 0x03 = some .setall ∧ opcodeOf 0x04 = some .showFrame ∧ opcodeOf 0x05 = some .flash ∧ opcodeOf 0x06 = some .close ∧
    decode [0x03, 0x00, 0x00, 0x01, 0x00, 0x00] = .packet (.setall [] one) [] := by decide

theorem test_witness_StepRunsTheDecodedCommand :
    decode { active with input := [0x04, 0xFF], resets := [⟨1, 0, []⟩] }.input = .packet .showFrame [0xFF] ∧
    { active with input := [0x04, 0xFF], resets := [⟨1, 0, []⟩] }.dueStrike = none ∧ active.dueStrike = none := by decide

theorem test_witness_UndefinedOpcodeIsIllegalCommand : { shut with input := [0xFF, 0x04] }.input = [0xFF, 0x04] ∧
    { shut with input := [0xFF, 0x04] }.dueStrike = none ∧ ((0x00 : Byte) = 0x00 ∨ 7 ≤ (0x00 : Byte).toNat) ∧
    ((0x07 : Byte) = 0x00 ∨ 7 ≤ (0x07 : Byte).toNat) ∧ ((0xFF : Byte) = 0x00 ∨ 7 ≤ (0xFF : Byte).toNat) :=
  ⟨rfl, rfl, by decide, by decide, by decide⟩

theorem test_witness_IncompletePacketIsWaitedFor : decode { active with input := [0x01, 0x06] }.input = .incomplete ∧
    { active with input := [0x01, 0x06] }.resets = [] ∧ (Instr.setall [] one).wellFormed = true ∧
    encode (.setall [] one) = [0x03, 0x00, 0x00, 0x01, 0x00] ++ [0x00] ∧ ([0x00] : List Byte) ≠ [] := by decide +kernel

theorem test_witness_ResetRestoresTheResetValues :
    decode { shut with input := [0x01, 0x06], resets := [⟨0, 3, [0x04]⟩, ⟨0, 0, []⟩] }.input = .incomplete ∧
    { shut with input := [0x01, 0x06], resets := [⟨0, 3, [0x04]⟩, ⟨0, 0, []⟩] }.resets = ⟨0, 3, [0x04]⟩ :: [⟨0, 0, []⟩] :=
  ⟨by decide, rfl⟩

/-- A strike in a `SHOW`, and one in an undefined byte. -/
theorem test_witness_StrikeAbandonsTheCommandItFallsIn :
    { oneLamp with input := [0x04], resets := [⟨0, 897, []⟩] }.resets = ⟨0, 897, []⟩ :: [] ∧
    (⟨0, 897, []⟩ : ResetStrike).commands = 0 ∧
    decode { oneLamp with input := [0x04], resets := [⟨0, 897, []⟩] }.input = .packet .showFrame [] ∧
    decode { oneLamp with input := [0x07], resets := [⟨0, 897, []⟩] }.input = .illegal 0x07 [] :=
  ⟨rfl, rfl, by decide, by decide⟩

/-- `Closed`, dark and released, and about to refuse a `SHOW`. -/
theorem test_witness_EveryStepKeepsTheInvariants : State.Inv { shut with input := [0x04] } ∧
    ∃ t, step { shut with input := [0x04] } = .next t := by
  refine ⟨⟨by decide, ?_, rfl, fun _ => rfl, fun _ => rfl, fun _ => ⟨rfl, rfl⟩, fun f h => nomatch h⟩, _, rfl⟩
  intro _ i
  have h : ({ shut with input := [0x04] } : State).lamp i = LampSetting.off := Vector.getElem_replicate ..
  rw [h]
  exact ⟨⟨0, Config.gamma.zero.symm⟩, ⟨0, Config.gamma.zero.symm⟩, ⟨0, Config.gamma.zero.symm⟩⟩

end Sys2Proof.Tests
end

section
/-! The gamma table (40_gamma_table.md): the laws of the lookup `correct`, for every table that rules R86 and R87 allow. -/

namespace Sys2Proof.Machine

/-- Rule R87, for the lookup: a channel scaled to nothing is stored dark. -/
@[simp] theorem correct_zero : correct 0 = 0 := Config.gamma.zero

/-- Rule R86, for the lookup: a larger linear input never yields a smaller corrected output. -/
theorem toNat_correct_le_toNat_correct {u v : Byte} (h : u.toNat ≤ v.toNat) :
    (correct u).toNat ≤ (correct v).toNat :=
  Config.gamma.mono u v h

/-- Settles O1: the lookup is one read of the table (R85), and the table is monotone by its law. -/
theorem gammaTableIsMonotone : Obligations.GammaTableIsMonotone :=
  fun _ _ h => toNat_correct_le_toNat_correct h

/-- Settles O2: the entry at 0 is the table's law, and the bound on the other entries is, as R87 says, what the type already says. -/
theorem gammaOfZeroIsZero : Obligations.GammaOfZeroIsZero :=
  ⟨correct_zero, fun v => Nat.zero_le (correct v).toNat⟩

end Sys2Proof.Machine
end

section
/-! `SET` (41_color_state.md section 2): what one accepted `SET` does, and the arithmetic of `Scale` (rule R92) where it does not saturate. -/

namespace Sys2Proof.Machine

theorem rhu_eq_floor (x : ℚ) : rhu x = ⌊x + 1 / 2⌋ := rfl

/-- A table address is not changed by saturation (rules R11, R93). -/
theorem sat8_of_mem_range {n : Int} (h0 : 0 ≤ n) (h255 : n ≤ 255) : sat8 n = BitVec.ofInt 8 n := by
  have hn : min ((Config.gammaEntries : Int) - 1) (max 0 n) = n := by rw [max_eq_right h0]; exact min_eq_right h255
  rw [sat8, hn]

/-- Rounding half up keeps `0 ≤ x ≤ n` for a whole bound `n` (rule R11). -/
theorem rhu_mem_range {x : ℚ} {n : Int} (h0 : 0 ≤ x) (hn : x ≤ n) : 0 ≤ rhu x ∧ rhu x ≤ n := by
  rw [rhu_eq_floor]
  exact ⟨Int.floor_nonneg.2 (by linarith), Int.floor_le_iff.2 (by linarith)⟩

/-- A brightness in `[0, 1]` rounds every raw channel to a table address (rule R98). -/
theorem rhu_channel_mem_range (raw : Byte) {b : ℚ} (h0 : 0 ≤ b) (h1 : b ≤ 1) :
    0 ≤ rhu ((raw.toNat : ℚ) * b) ∧ rhu ((raw.toNat : ℚ) * b) ≤ 255 := by
  have hraw : (raw.toNat : ℚ) ≤ 255 := by exact_mod_cast Nat.le_of_lt_succ raw.isLt
  have hmul : (raw.toNat : ℚ) * b ≤ raw.toNat := mul_le_of_le_one_right raw.toNat.cast_nonneg h1
  exact rhu_mem_range (mul_nonneg raw.toNat.cast_nonneg h0) (by exact_mod_cast hmul.trans hraw)

/-- With a brightness in `[0, 1]`, `Scale` is the rounded product itself (rules R92, R98). -/
theorem scale_of_le_one (raw : Byte) {b : ℚ} (h0 : 0 ≤ b) (h1 : b ≤ 1) :
    scale raw b = BitVec.ofInt 8 ⌊(raw.toNat : ℚ) * b + 1 / 2⌋ :=
  have ⟨hlo, hhi⟩ := rhu_channel_mem_range raw h0 h1
  sat8_of_mem_range hlo hhi

/-- Rule R98 for one channel: the table entry stored, and that its address is one of the table's. -/
theorem channel_range_law (raw : Byte) {b : ℚ} (h0 : 0 ≤ b) (h1 : b ≤ 1) :
    0 ≤ ⌊(raw.toNat : ℚ) * b + 1 / 2⌋ ∧ ⌊(raw.toNat : ℚ) * b + 1 / 2⌋ ≤ 255 ∧
      correct (scale raw b) = Config.gamma.get (BitVec.ofInt 8 ⌊(raw.toNat : ℚ) * b + 1 / 2⌋) := by
  obtain ⟨hlo, hhi⟩ := rhu_channel_mem_range raw h0 h1
  exact ⟨hlo, hhi, congrArg correct (scale_of_le_one raw h0 h1)⟩

/-- An accepted `SET` (rule R95): one store to the addressed register, then completion with `Ok`. -/
theorem exec_set_of_active {s : State} {c : Color} {rgb : Rgb} (hs : s.dstate = .active) (hc : parseColor c = some rgb)
    (i : Fin Config.numLamps) (b : Brightness) :
    exec (.set i.val c b) s = .next (respond .ok (s.setLampReg i (lampValue rgb b.val))) := by
  change execSet i.val c b s = _
  rw [execSet, gate_active hs (by decide), Run.done_andThen, setLamp_fin hc, complete_done]

/-- Settles O20: `exec_set_of_active` gives the next state, and `channel_range_law` speaks of each channel of the value it stores. -/
theorem setNeverRaisesInTheGuaranteedRange : Obligations.SetNeverRaisesInTheGuaranteedRange := by
  intro i c b rgb s hs hc hb
  have hch (raw : Byte) := channel_range_law raw b.property hb
  have hlamp : (respond .ok (s.setLampReg i (lampValue rgb b.val))).lamp i = lampValue rgb b.val :=
    s.lamp_setLampReg_self i _
  refine ⟨_, exec_set_of_active hs hc i b, respond_status .., ?_⟩
  rw [hlamp]
  exact List.forall_mem_cons.2 ⟨hch rgb.r, List.forall_mem_cons.2 ⟨hch rgb.g, List.forall_mem_singleton.2 (hch rgb.b)⟩⟩

end Sys2Proof.Machine
end

section
/-! The serializer's parts (42_protocol_encoder.md section 1): what an accepted bit, byte and lamp packet write, and how they leave the lines. -/

namespace Sys2Proof.Machine

/-- Accepted line writes that end with a bit leave its level on the data line and the clock low (rules R111, R112). -/
theorem sendAll_of_last_bit {ws : List LineWrite} {x : Bool} {n : Nat} {s : State} (hx : bitWrites x <:+ ws)
    (hn : ws.length = n) (h : s.AcceptsNext n) : sendAll ws s = .done { s with
      trace := s.trace ++ ws.map LineWrite.event
      dat := .driven x
      clk := .driven false
      pinWrites := s.pinWrites + n } := by
  subst hn
  obtain ⟨before, rfl⟩ := hx
  obtain ⟨hdat, hclk⟩ := s.sent_lines before x [(.clk, true)] (by simp) false
  rw [List.append_assoc] at hdat hclk
  rw [sendAll_accepted h]
  exact congrArg Run.done (State.ext (by simp) (by simp) (by simp) (by simp) hdat hclk (by simp) (by simp) (by simp)
    (by simp) (by simp) (by simp) (by simp))

/-- Bit 0 of a byte is sent last (rule R113). -/
theorem bitWrites_suffix_byteWrites (v : Byte) : bitWrites (v.getLsbD 0) <:+ byteWrites v :=
  ⟨[7, 6, 5, 4, 3, 2, 1].flatMap fun p => bitWrites (v.getLsbD p), rfl⟩

/-- The red byte of a lamp is sent last (rule R115). -/
theorem byteWrites_suffix_packetWrites (l : LampSetting) : byteWrites l.red <:+ packetWrites l :=
  List.suffix_append ..

theorem packetWrites_length (l : LampSetting) : (packetWrites l).length = 96 := by
  simp [packetWrites, byteWrites_length]

theorem map_event_bitWrites (x : Bool) : (bitWrites x).map LineWrite.event = bitEvents x := rfl

theorem map_event_byteWrites (v : Byte) : (byteWrites v).map LineWrite.event = byteEvents v :=
  List.map_flatMap ..

theorem map_event_packetWrites (l : LampSetting) :
    (packetWrites l).map LineWrite.event = [0xFF, l.blue, l.green, l.red].flatMap byteEvents := by
  simp [packetWrites, map_event_byteWrites, Config.marker]

theorem byteEvents_length (v : Byte) : (byteEvents v).length = 24 := by
  rw [← map_event_byteWrites, List.length_map, byteWrites_length]

/-- A bit has one pulse, whatever its level (rule R112). -/
theorem count_clkHigh_bitEvents (x : Bool) : (bitEvents x).count (.write .clk true) = 1 := by
  cases x <;> rfl

theorem count_clkHigh_byteEvents (v : Byte) : (byteEvents v).count (.write .clk true) = 8 := by
  simp [byteEvents, List.count_append, count_clkHigh_bitEvents]

theorem lampPacket_accepted (i : Fin Config.numLamps) {s : State} (h : s.AcceptsNext 96) :
    lampPacket i s = .done { s with
      trace := s.trace ++ [0xFF, (s.lamp i).blue, (s.lamp i).green, (s.lamp i).red].flatMap byteEvents
      dat := .driven ((s.lamp i).red.getLsbD 0)
      clk := .driven false
      pinWrites := s.pinWrites + 96 } := by
  have hx := (bitWrites_suffix_byteWrites _).trans (byteWrites_suffix_packetWrites (s.lamp i))
  rw [lampPacket_eq, sendAll_of_last_bit hx (packetWrites_length _) h, map_event_packetWrites]

/-- Settles O9: a bit is three line writes, and no level of the data line is asked for before them. -/
theorem sendBitWritesDataThenPulses : Obligations.SendBitWritesDataThenPulses := by
  intro x s h
  rw [sendBit_eq, sendAll_of_last_bit (n := 3) List.suffix_rfl rfl h, map_event_bitWrites, bitEvents]

/-- Settles O10: a byte is the line writes of its bits from 7 down to 0, of which the last is a bit's. -/
theorem sendByteIsMsbFirst : Obligations.SendByteIsMsbFirst := by
  refine ⟨fun v s h => ?_, fun v => ⟨byteEvents_length v, count_clkHigh_byteEvents v⟩, by decide⟩
  rw [sendByte_eq, sendAll_of_last_bit (bitWrites_suffix_byteWrites v) (byteWrites_length v) h, map_event_byteWrites]
  rfl

/-- Settles O11: a packet is the line writes of four bytes read from one lamp register, which no line write changes. -/
theorem lampPacketIsMarkerBlueGreenRed : Obligations.LampPacketIsMarkerBlueGreenRed := by
  refine ⟨fun i s h => lampPacket_accepted i h, fun l => ⟨?_, ?_⟩, fun i s h hl => ⟨_, lampPacket_accepted i h, ?_⟩⟩
  · simp [byteEvents_length]
  · simp [List.count_append, count_clkHigh_byteEvents]
  · rw [hl]

end Sys2Proof.Machine
end

section
/-! A frame as bits (42_protocol_encoder.md section 3): the frame's line writes are one bit of `frameBit` after another between two framing
parts, and every part carries its own data write, so what it samples to does not depend on the data line before it. -/

namespace Sys2Proof.Machine

/-- Line writes that sample to `bits` (rule R124) whatever the data line was before them and whatever events follow. -/
def SamplesTo (ws : List LineWrite) (bits : List Bool) : Prop :=
  ∀ last, ∃ last', ∀ es,
    sampledBits last (ws.map LineWrite.event ++ es) = bits.map .driven ++ sampledBits last' es

theorem SamplesTo.append {vs ws : List LineWrite} {as bs : List Bool} (hv : SamplesTo vs as) (hw : SamplesTo ws bs) :
    SamplesTo (vs ++ ws) (as ++ bs) := by
  intro last
  obtain ⟨mid, hv⟩ := hv last
  obtain ⟨last', hw⟩ := hw mid
  exact ⟨last', fun es => by simp only [List.map_append, List.append_assoc, hv, hw]⟩

theorem samplesTo_flatMap {α : Type} (as : List α) {ws : α → List LineWrite} {bit : α → Bool}
    (h : ∀ a, SamplesTo (ws a) [bit a]) : SamplesTo (as.flatMap ws) (as.map bit) := by
  induction as with
  | nil => exact fun last => ⟨last, fun _ => rfl⟩
  | cons a as ih => exact (h a).append ih

theorem samplesTo_bitWrites (x : Bool) : SamplesTo (bitWrites x) [x] := fun _ => ⟨.driven x, fun _ => rfl⟩

/-- Pulses sample the level that the data line holds (rules R111, R124). -/
theorem sampledBits_pulses (l : LineLevel) (n : Nat) (es : List Event) :
    sampledBits l ((List.replicate n pulseWrites).flatten.map LineWrite.event ++ es) =
      List.replicate n l ++ sampledBits l es := by
  induction n with
  | zero => rfl
  | succ n ih => exact congrArg (l :: ·) ih

/-- A framing part samples to its level, once for each pulse (rules R114, R116). -/
theorem samplesTo_holdWrites (x : Bool) (n : Nat) : SamplesTo (holdWrites x n) (List.replicate n x) :=
  fun _ => ⟨.driven x, fun es => by rw [List.map_replicate]; exact sampledBits_pulses (.driven x) n es⟩

/-- Byte `j` of lamp `i`'s packet is the frame's bits from `32 + 32 * i + 8 * j` on, in order (rules R113, R118). -/
theorem byteWrites_frameByte (st : Strip) (i : Fin 8) {j : Nat} (hj : j < 4) : byteWrites (frameByte st i j) =
    (List.range 8).flatMap fun p => bitWrites (frameBit st (32 + (32 * i.val + 8 * j + p))) := by
  have sent : byteWrites (frameByte st i j) =
      (List.range 8).flatMap fun p => bitWrites ((frameByte st i j).getLsbD (7 - p)) := rfl
  rw [sent]
  exact flatMap_congr_mem fun p hp => congrArg bitWrites (frameBit_packet st i j p hj (List.mem_range.mp hp)).symm

/-- The eight packets are the frame's bits 32 to 287, in order (rule R118). -/
theorem lampPackets_eq_bits (st : Strip) : (lamps.flatMap fun i => packetWrites st[i]) =
    (List.range 256).flatMap fun q => bitWrites (frameBit st (32 + q)) := by
  have packet (i : Fin 8) : packetWrites st[i] = (List.range 4).flatMap fun j => byteWrites (frameByte st i j) := rfl
  rw [packetPositions]
  refine flatMap_congr_mem fun i _ => (packet i).trans ?_
  exact flatMap_congr_mem fun j hj => byteWrites_frameByte st i (List.mem_range.mp hj)

/-- The 320 bits of a frame: 32 zeros, the bits of the packets, 32 ones (rule R118). -/
theorem frameBits_eq (st : Strip) : frameBits st = List.replicate 32 false ++
    ((List.range 256).map fun q => frameBit st (32 + q)) ++ List.replicate 32 true := by
  have start : ∀ q ∈ List.range 32, frameBit st q = false := fun q hq => by
    rw [frameBit_eq, if_pos (List.mem_range.mp hq)]
  have finish : ∀ q ∈ List.range 32, frameBit st (32 + 256 + q) = true := fun q _ => by
    rw [frameBit_eq, if_neg (by omega), dif_neg (by omega)]
  rw [frameBits, show Config.framePulses = 32 + 256 + 32 from rfl, List.range_add, List.range_add]
  simp only [List.map_append, List.map_map, Function.comp_def, List.map_congr_left start, List.map_congr_left finish,
    List.map_const', List.length_range]

theorem samplesTo_frameLineWrites (st : Strip) : SamplesTo (frameLineWrites st) (frameBits st) := by
  rw [frameLineWrites, lampPackets_eq_bits, frameBits_eq]
  exact ((samplesTo_holdWrites false 32).append
    (samplesTo_flatMap _ fun q => samplesTo_bitWrites (frameBit st (32 + q)))).append (samplesTo_holdWrites true 32)

/-- Rule R124: what a frame's events sample to is the frame's bits. -/
theorem sampledBits_frameEvents (last : LineLevel) (st : Strip) :
    sampledBits last (frameEvents st) = (frameBits st).map .driven := by
  obtain ⟨last', h⟩ := samplesTo_frameLineWrites st last
  simpa [frameEvents_eq, sampledBits] using h []

theorem frameEvents_length (st : Strip) : (frameEvents st).length = 898 := by
  rw [frameEvents_eq, List.length_map, frameLineWrites_length]

end Sys2Proof.Machine
end

section
/-! `SHOW` (42_protocol_encoder.md sections 2 and 3): an accepted `SHOW` is the line writes of the frame of the strip it began with. -/

namespace Sys2Proof.Machine

/-- An accepted `SHOW` (rule R120). -/
theorem exec_showFrame_of_active {s : State} (hs : s.dstate = .active) (h : s.AcceptsNext 898) :
    exec .showFrame s = .next (respond .ok (s.sent (frameLineWrites s.strip))) := by
  change execShow s = _
  rw [execShow, gate_active hs (by decide), Run.done_andThen, writeFrame_eq,
    sendAll_accepted (by rwa [frameLineWrites_length]), complete_done]

theorem execAll_cons {i : Instr} {s t : State} (h : exec i s = .next t) (is : List Instr) :
    execAll (i :: is) s = execAll is t := by
  simp only [execAll, h]

/-- Settles O17: `SHOW` sends the frame of the strip and nothing else of the state goes into it, and it leaves the strip, the mode and the
collaborator as they were, so a second `SHOW` sends the same frame. -/
theorem frameIsAFunctionOfStripAlone : Obligations.FrameIsAFunctionOfStripAlone := by
  constructor
  · intro s s' hs hs' hstrip h h'
    refine ⟨frameEvents s.strip, _, _, frameEvents_length _, sampledBits_frameEvents _ _,
      exec_showFrame_of_active hs h, exec_showFrame_of_active hs' h', ?_, ?_⟩
    · simp [frameEvents_eq]
    · simp [frameEvents_eq, hstrip]
  · intro s hs h
    have first := exec_showFrame_of_active hs (AcceptsNext.of_le h (by decide))
    have second := exec_showFrame_of_active (s := respond .ok (s.sent (frameLineWrites s.strip))) (by simpa using hs)
      (AcceptsNext.shift (m := 898) h (by simp) (by simp [frameLineWrites_length]))
    refine ⟨frameEvents s.strip, _, frameEvents_length _, sampledBits_frameEvents _ _,
      (execAll_cons first _).trans (execAll_cons second _), ?_⟩
    simp [frameEvents_eq]

end Sys2Proof.Machine
end

section
/-! The packet of a command (30_encoding.md sections 2 to 6): each field of a packet is taken exactly from the bytes that put it there. From these
equivalences, one for each field and format, come the round trip in both directions and the unique splitting of a stream. -/

namespace Sys2Proof

-- One theorem at a time: the whole text is compiled at once, and its threads share one limit of memory.
set_option Elab.async false

/-! ### The fields (rules R45, R64 to R68) -/

theorem foldl_beBytes (n v acc : Nat) :
    (beBytes n v).foldl (fun a b => 256 * a + b.toNat) acc = acc * 256 ^ n + v % 256 ^ n := by
  induction n generalizing acc with
  | zero => simp [beBytes, Nat.mod_one]
  | succ n ih =>
    rw [beBytes, List.foldl_cons, ih, BitVec.toNat_ofNat, pow_succ 256 n, Nat.mod_mul (x := v)]
    ring

/-- A number that fits `n` bytes is read back from them (rule R45). -/
theorem beNat_beBytes {n v : Nat} (h : v < 256 ^ n) : beNat (beBytes n v) = v := by
  rw [beNat, foldl_beBytes, Nat.zero_mul, Nat.zero_add, Nat.mod_eq_of_lt h]

theorem beNat_concat (bs : List Byte) (b : Byte) : beNat (bs ++ [b]) = 256 * beNat bs + b.toNat :=
  List.foldl_concat ..

/-- The last of a number's bytes is its lowest one (rule R45). -/
theorem beBytes_succ_concat (n v : Nat) : beBytes (n + 1) v = beBytes n (v / 256) ++ [BitVec.ofNat 8 v] := by
  induction n with
  | zero => simp [beBytes]
  | succ n ih =>
    rw [beBytes, ih, beBytes, Nat.div_div_eq_div_mul, pow_succ', List.cons_append]

/-- The bytes of a field are those of the number they stand for, which fits them (rule R45). -/
theorem beNat_lt_and_beBytes_beNat (bs : List Byte) :
    beNat bs < 256 ^ bs.length ∧ beBytes bs.length (beNat bs) = bs := by
  induction bs using List.reverseRecOn with
  | nil => exact ⟨Nat.one_pos, rfl⟩
  | append_singleton bs b ih =>
    obtain ⟨hlt, heq⟩ := ih
    have hb := b.isLt
    rw [List.length_append, List.length_singleton, beNat_concat, beBytes_succ_concat,
      show (256 * beNat bs + b.toNat) / 256 = beNat bs by omega, heq, pow_succ]
    refine ⟨by omega, congrArg (bs ++ [·]) (BitVec.eq_of_toNat_eq ?_)⟩
    rw [BitVec.toNat_ofNat]
    omega

theorem takeBytes_eq_some {n : Nat} {bs xs rest : List Byte} :
    takeBytes n bs = some (xs, rest) ↔ xs.length = n ∧ bs = xs ++ rest := by
  constructor
  · exact fun h => (takeBytes_some h).symm
  · rintro ⟨rfl, rfl⟩
    exact takeBytes_append xs rest

theorem takeNat_eq_some {n v : Nat} {bs rest : List Byte} :
    takeNat n bs = some (v, rest) ↔ v < 256 ^ n ∧ bs = beBytes n v ++ rest := by
  have hdef : takeNat n bs = (takeBytes n bs).map fun p => (beNat p.1, p.2) := by
    unfold takeNat
    cases takeBytes n bs <;> rfl
  simp only [hdef, Option.map_eq_some_iff, Prod.exists, Prod.mk.injEq, takeBytes_eq_some]
  constructor
  · rintro ⟨xs, _, ⟨rfl, rfl⟩, rfl, rfl⟩
    obtain ⟨hlt, heq⟩ := beNat_lt_and_beBytes_beNat xs
    exact ⟨hlt, by rw [heq]⟩
  · rintro ⟨hlt, rfl⟩
    exact ⟨beBytes n v, rest, ⟨beBytes_length n v, rfl⟩, beNat_beBytes hlt, rfl⟩

theorem takeNat_eq_none {n : Nat} {bs : List Byte} : takeNat n bs = none ↔ bs.length < n := by
  rw [← takeBytes_none, takeNat]
  cases takeBytes n bs <;> simp

theorem toNat_ofNat_length {c : Color} (h : colorFits c = true) : (BitVec.ofNat 8 c.length).toNat = c.length := by
  have h : c.length ≤ 255 := of_decide_eq_true h
  rw [BitVec.toNat_ofNat]
  omega

theorem takeColor_eq_some {bs : List Byte} {c : Color} {rest : List Byte} :
    takeColor bs = some (c, rest) ↔ colorFits c = true ∧ bs = putColor c ++ rest := by
  constructor
  · cases bs with
    | nil => exact nofun
    | cons n bs =>
      intro h
      obtain ⟨hlen, rfl⟩ := takeBytes_eq_some.mp h
      have hn := n.isLt
      refine ⟨decide_eq_true (show c.length ≤ 255 by omega), ?_⟩
      rw [putColor, hlen, BitVec.ofNat_toNat, BitVec.setWidth_eq, List.cons_append]
  · rintro ⟨hc, rfl⟩
    rw [putColor, List.cons_append, takeColor, toNat_ofNat_length hc]
    exact takeBytes_append c rest

theorem ofInt_floor_toNat (B : BitVec 32) : BitVec.ofInt 32 (B.toNat : ℚ).floor = B := by
  have h : (B.toNat : ℚ).floor = (B.toNat : Int) := Int.floor_natCast (R := ℚ) B.toNat
  rw [h, BitVec.ofInt_natCast, BitVec.ofNat_toNat, BitVec.setWidth_eq]

theorem Brightness.ofField_val (B : BitVec 32) : (Brightness.ofField B).val = B.toNat / 65536 := by
  show mkRat B.toNat 65536 = _
  rw [Rat.mkRat_eq_div, Int.cast_natCast, Nat.cast_ofNat]

/-- A brightness that a field stands for is put as that field (rule R66). -/
theorem Brightness.toField_ofField (B : BitVec 32) : (Brightness.ofField B).toField = B := by
  rw [Brightness.toField, Brightness.ofField_val, div_mul_cancel₀ _ (by norm_num), ofInt_floor_toNat]

/-- An interval that a field stands for is put as that field (rule R68). -/
theorem Duration.toField_ofField (I : BitVec 32) : (Duration.ofField I).toField = I :=
  ofInt_floor_toNat I

theorem brightnessFits_iff {b : Brightness} : brightnessFits b = true ↔ ∃ B, Brightness.ofField B = b :=
  ⟨fun h => ⟨b.toField, of_decide_eq_true h⟩, by
    rintro ⟨B, rfl⟩
    exact decide_eq_true (by rw [Brightness.toField_ofField])⟩

theorem intervalFits_iff {d : Duration} : intervalFits d = true ↔ ∃ I, Duration.ofField I = d :=
  ⟨fun h => ⟨d.toField, of_decide_eq_true h⟩, by
    rintro ⟨I, rfl⟩
    exact decide_eq_true (by rw [Duration.toField_ofField])⟩

/-- A four-byte field is read as the word whose bytes they are (rule R45). -/
theorem takeNat_four {bs rest : List Byte} {v : Nat} : takeNat 4 bs = some (v, rest) ↔
    ∃ B : BitVec 32, v = B.toNat ∧ bs = beBytes 4 B.toNat ++ rest := by
  rw [takeNat_eq_some]
  constructor
  · rintro ⟨hv, rfl⟩
    have hB : (BitVec.ofNat 32 v).toNat = v := BitVec.toNat_ofNat v 32 ▸ Nat.mod_eq_of_lt hv
    exact ⟨BitVec.ofNat 32 v, hB.symm, by rw [hB]⟩
  · rintro ⟨B, rfl, rfl⟩
    exact ⟨B.isLt, rfl⟩

/-! ### The formats (rule R62) -/

theorem takeColorBright_eq_bind (bs : List Byte) : takeColorBright bs = (takeColor bs).bind fun p =>
    (takeNat 4 p.2).map fun q => (p.1, Brightness.ofField (BitVec.ofNat 32 q.1), q.2) := by
  unfold takeColorBright
  cases takeColor bs with
  | none => rfl
  | some p => cases h : takeNat 4 p.2 <;> simp [h]

theorem takeTimesInterval_eq_bind (bs : List Byte) : takeTimesInterval bs = (takeNat 2 bs).bind fun p =>
    (takeNat 4 p.2).map fun q => (p.1, Duration.ofField (BitVec.ofNat 32 q.1), q.2) := by
  unfold takeTimesInterval
  cases takeNat 2 bs with
  | none => rfl
  | some p => cases h : takeNat 4 p.2 <;> simp [h]

theorem takeLamp_cons (led : Byte) (bs : List Byte) :
    takeLamp (led :: bs) = (takeColorBright bs).map fun p => ((led.toNat : Int), p) := by
  cases h : takeColorBright bs <;> simp [takeLamp, h]

theorem takeColorBright_eq_some {bs : List Byte} {c : Color} {b : Brightness} {rest : List Byte} :
    takeColorBright bs = some (c, b, rest) ↔
      (colorFits c && brightnessFits b) = true ∧ bs = putColor c ++ putBright b ++ rest := by
  simp only [takeColorBright_eq_bind, Option.bind_eq_some_iff, Option.map_eq_some_iff, Prod.exists, Prod.mk.injEq,
    takeColor_eq_some, takeNat_four, Bool.and_eq_true]
  constructor
  · rintro ⟨_, _, ⟨hc, rfl⟩, _, _, ⟨B, rfl, rfl⟩, rfl, rfl, rfl⟩
    rw [BitVec.ofNat_toNat, BitVec.setWidth_eq]
    exact ⟨⟨hc, brightnessFits_iff.mpr ⟨B, rfl⟩⟩, by rw [putBright, Brightness.toField_ofField, List.append_assoc]⟩
  · rintro ⟨⟨hc, hb⟩, rfl⟩
    refine ⟨c, putBright b ++ rest, ⟨hc, List.append_assoc ..⟩, _, rest, ⟨b.toField, rfl, rfl⟩, rfl, ?_, rfl⟩
    rw [BitVec.ofNat_toNat, BitVec.setWidth_eq]
    exact of_decide_eq_true hb

theorem takeLamp_eq_some {bs : List Byte} {l : Int} {c : Color} {b : Brightness} {rest : List Byte} :
    takeLamp bs = some (l, c, b, rest) ↔ (ledFits l && colorFits c && brightnessFits b) = true ∧
      bs = putLed l ++ putColor c ++ putBright b ++ rest := by
  have put : ∀ led : Byte, ledFits led.toNat = true ∧ putLed led.toNat = [led] := fun led =>
    ⟨decide_eq_true (by have := led.isLt; omega), by simp [putLed]⟩
  have take (hl : ledFits l = true) : ((BitVec.ofInt 8 l).toNat : Int) = l := by
    have h : 0 ≤ l ∧ l ≤ 255 := of_decide_eq_true hl
    rw [BitVec.toNat_ofInt]
    omega
  rw [Bool.and_assoc, Bool.and_eq_true, and_assoc]
  cases bs with
  | nil => simp [takeLamp, putLed]
  | cons led bs =>
    rw [takeLamp_cons]
    simp only [Option.map_eq_some_iff, Prod.mk.injEq, Prod.exists]
    constructor
    · rintro ⟨_, _, _, h, rfl, rfl, rfl, rfl⟩
      obtain ⟨hfit, rfl⟩ := takeColorBright_eq_some.mp h
      obtain ⟨hl, hput⟩ := put led
      exact ⟨hl, hfit, by rw [hput]; rfl⟩
    · rintro ⟨hl, hfit, h⟩
      obtain ⟨rfl, rfl⟩ := List.cons.inj h
      exact ⟨c, b, rest, takeColorBright_eq_some.mpr ⟨hfit, rfl⟩, take hl, rfl, rfl, rfl⟩

theorem takeTimesInterval_eq_some {bs : List Byte} {n : Nat} {d : Duration} {rest : List Byte} :
    takeTimesInterval bs = some (n, d, rest) ↔ (timesFits n && intervalFits d) = true ∧
      bs = beBytes 2 n ++ beBytes 4 (Duration.toField d).toNat ++ rest := by
  simp only [takeTimesInterval_eq_bind, Option.bind_eq_some_iff, Option.map_eq_some_iff, Prod.exists, Prod.mk.injEq,
    takeNat_four, takeNat_eq_some (n := 2), Bool.and_eq_true]
  constructor
  · rintro ⟨_, _, ⟨hn, rfl⟩, _, _, ⟨I, rfl, rfl⟩, rfl, rfl, rfl⟩
    rw [BitVec.ofNat_toNat, BitVec.setWidth_eq]
    exact ⟨⟨decide_eq_true hn, intervalFits_iff.mpr ⟨I, rfl⟩⟩, by rw [Duration.toField_ofField, List.append_assoc]⟩
  · rintro ⟨⟨hn, hd⟩, rfl⟩
    refine ⟨n, _, ⟨of_decide_eq_true hn, List.append_assoc ..⟩, _, rest, ⟨d.toField, rfl, rfl⟩, rfl, ?_, rfl⟩
    rw [BitVec.ofNat_toNat, BitVec.setWidth_eq]
    exact of_decide_eq_true hd

/-! ### The packet (rules R62, R63) -/

theorem takeOperands_flash (bs : List Byte) : takeOperands .flash bs = (takeLamp bs).bind fun p =>
    (takeTimesInterval p.2.2.2).map fun q => (.flash p.1 p.2.1 p.2.2.1 q.1 q.2.1, q.2.2) := by
  unfold takeOperands
  cases takeLamp bs <;> rfl

/-- The operands of a command are taken exactly from the bytes that put them, in every format (rule R62). -/
theorem takeOperands_eq_some {o : Opcode} {bs : List Byte} {i : Instr} {rest : List Byte} :
    takeOperands o bs = some (i, rest) ↔ i.opcode = o ∧ i.wellFormed = true ∧ bs = putOperands i ++ rest := by
  constructor
  · intro h
    cases o
    case init | setall | close =>
      obtain ⟨_, ht, hi⟩ := Option.map_eq_some_iff.mp h
      cases hi
      exact ⟨rfl, takeColorBright_eq_some.mp ht⟩
    case set =>
      obtain ⟨_, ht, hi⟩ := Option.map_eq_some_iff.mp h
      cases hi
      exact ⟨rfl, takeLamp_eq_some.mp ht⟩
    case showFrame =>
      cases h
      exact ⟨rfl, rfl, rfl⟩
    case flash =>
      rw [takeOperands_flash] at h
      obtain ⟨⟨l, c, b, mid⟩, hl, h⟩ := Option.bind_eq_some_iff.mp h
      obtain ⟨⟨n, d, _⟩, ht, hi⟩ := Option.map_eq_some_iff.mp h
      cases hi
      obtain ⟨hlamp, rfl⟩ := takeLamp_eq_some.mp hl
      obtain ⟨htimes, rfl⟩ := takeTimesInterval_eq_some.mp ht
      exact ⟨rfl, by rw [Instr.wellFormed, Bool.and_assoc, hlamp, htimes]; rfl, by simp [putOperands]⟩
  · rintro ⟨rfl, hw, rfl⟩
    cases i with
    | init c b | setall c b | close c b => exact congrArg (Option.map _) (takeColorBright_eq_some.mpr ⟨hw, rfl⟩)
    | set l c b => exact congrArg (Option.map _) (takeLamp_eq_some.mpr ⟨hw, rfl⟩)
    | showFrame => rfl
    | flash l c b n d =>
      rw [Instr.wellFormed, Bool.and_assoc, Bool.and_eq_true] at hw
      obtain ⟨hlamp, htimes⟩ := hw
      have ht := takeTimesInterval_eq_some (rest := rest).mpr ⟨htimes, rfl⟩
      have hl := takeLamp_eq_some (rest := beBytes 2 n ++ beBytes 4 (Duration.toField d).toNat ++ rest).mpr ⟨hlamp, rfl⟩
      simp only [Instr.opcode, takeOperands_flash, putOperands, List.append_assoc] at hl ht ⊢
      simp only [hl, Option.bind_some, ht, Option.map_some]

theorem decode_eq_packet {bs : List Byte} {i : Instr} {rest : List Byte} :
    decode bs = .packet i rest ↔ i.wellFormed = true ∧ bs = encode i ++ rest := by
  cases bs with
  | nil => simp [decode, encode]
  | cons op bs =>
    have hdef : decode (op :: bs) = .packet i rest ↔ ∃ o, opcodeOf op = some o ∧ takeOperands o bs = some (i, rest) := by
      cases ho : opcodeOf op with
      | none => simp [decode, ho]
      | some o => cases h : takeOperands o bs <;> simp [decode, ho, h, Prod.ext_iff]
    simp only [hdef, takeOperands_eq_some, encode, List.cons_append, List.cons.injEq]
    constructor
    · rintro ⟨o, ho, rfl, hw, rfl⟩
      exact ⟨hw, opcodeOf_some ho, rfl⟩
    · rintro ⟨hw, rfl, rfl⟩
      exact ⟨_, opcodeOf_byte _, rfl, hw, rfl⟩

/-- Settles O47: the decoder takes a packet from bytes exactly if they begin with the encoding of its command. -/
theorem decodeOfEncodeIsTheCommand : Obligations.DecodeOfEncodeIsTheCommand :=
  fun _ _ h => decode_eq_packet.mpr ⟨h, rfl⟩

/-- Settles O48: the same equivalence, read the other way. -/
theorem encodeOfDecodeIsTheBytes : Obligations.EncodeOfDecodeIsTheBytes :=
  fun _ _ _ h => decode_eq_packet.mp h

/-! ### What is no complete packet (rules R70, R72) -/

theorem decode_eq_illegal {bs : List Byte} {op : Byte} {rest : List Byte} :
    decode bs = .illegal op rest ↔ opcodeOf op = none ∧ bs = op :: rest := by
  cases bs with
  | nil => simp [decode]
  | cons b bs =>
    cases ho : opcodeOf b with
    | none => grind [decode]
    | some o => cases h : takeOperands o bs <;> grind [decode]

theorem decode_eq_incomplete {op : Byte} {o : Opcode} (ho : opcodeOf op = some o) (bs : List Byte) :
    decode (op :: bs) = .incomplete ↔ takeOperands o bs = none := by
  cases h : takeOperands o bs <;> simp [decode, ho, h]

/-- Settles O54: bytes that begin a packet and hold another one would give that packet two encodings. -/
theorem incompletePacketIsWaitedFor : Obligations.IncompletePacketIsWaitedFor := by
  refine ⟨fun s hd hr => ?_, fun i bs more hw he hmore => ?_⟩
  · simp only [Machine.step, hd, Machine.awaitInput, hr]
  · cases hd : decode bs with
    | incomplete => rfl
    | packet j rest =>
      obtain ⟨hj, rfl⟩ := decode_eq_packet.mp hd
      have h := decode_eq_packet (rest := []).mpr ⟨hw, rfl⟩
      rw [List.append_nil, he, List.append_assoc, decode_eq_packet.mpr ⟨hj, rfl⟩] at h
      exact absurd (List.append_eq_nil_iff.mp (Received.packet.inj h).2).2 hmore
    | illegal op rest =>
      obtain ⟨hop, rfl⟩ := decode_eq_illegal.mp hd
      obtain ⟨rfl, -⟩ := List.cons.inj he
      exact absurd hop (by rw [opcodeOf_byte]; exact nofun)

/-! ### A stream of items (rule R78) -/

/-- What stands at the head of a stream that begins with an item. -/
def StreamItem.received : StreamItem → List Byte → Received
  | .packet i, rest => .packet i rest
  | .illegal op, rest => .illegal op rest

theorem StreamItem.received_inj {x y : StreamItem} {rest rest' : List Byte} :
    x.received rest = y.received rest' ↔ x = y ∧ rest = rest' := by
  cases x <;> cases y <;> simp [StreamItem.received]

theorem StreamItem.received_ne_incomplete (x : StreamItem) (rest : List Byte) : x.received rest ≠ .incomplete := by
  cases x <;> exact nofun

theorem decode_item {x : StreamItem} (h : x.valid = true) (rest : List Byte) :
    decode (x.bytes ++ rest) = x.received rest := by
  cases x with
  | packet i => exact decode_eq_packet.mpr ⟨h, rfl⟩
  | illegal op => exact decode_eq_illegal.mpr ⟨Option.isNone_iff_eq_none.mp h, rfl⟩

/-- A stream whose head is complete begins with a valid item. -/
theorem exists_item_of_decode {bs : List Byte} (h : decode bs ≠ .incomplete) :
    ∃ x : StreamItem, x.valid = true ∧ ∃ rest, bs = x.bytes ++ rest := by
  cases hd : decode bs with
  | incomplete => exact absurd hd h
  | packet i rest =>
    obtain ⟨hw, hbs⟩ := decode_eq_packet.mp hd
    exact ⟨.packet i, hw, rest, hbs⟩
  | illegal op rest =>
    obtain ⟨hop, hbs⟩ := decode_eq_illegal.mp hd
    exact ⟨.illegal op, Option.isNone_iff_eq_none.mpr hop, rest, hbs⟩

theorem StreamItem.bytes_length_pos (x : StreamItem) : 0 < x.bytes.length := by
  cases x <;> exact Nat.succ_pos _

/-- A stream splits: its items are taken off its head until it is incomplete. -/
theorem exists_split (bs : List Byte) : ∃ (xs : List StreamItem) (tail : List Byte), (∀ x ∈ xs, x.valid = true) ∧ decode tail = .incomplete ∧
    bs = xs.flatMap StreamItem.bytes ++ tail := by
  by_cases hd : decode bs = .incomplete
  · exact ⟨[], bs, nofun, hd, rfl⟩
  · obtain ⟨x, hx, rest, rfl⟩ := exists_item_of_decode hd
    obtain ⟨xs, tail, hxs, ht, hrest⟩ := exists_split rest
    exact ⟨x :: xs, tail, List.forall_mem_cons.mpr ⟨hx, hxs⟩, ht, by
      rw [List.flatMap_cons, List.append_assoc, ← hrest]⟩
termination_by bs.length
decreasing_by
  subst_vars
  rw [List.length_append]
  exact Nat.lt_add_of_pos_left x.bytes_length_pos

/-- Two splits of a stream agree: decoding at its head tells the first item, or that there is none. -/
theorem split_unique {xs ys : List StreamItem} {tail tail' : List Byte} (hxs : ∀ x ∈ xs, x.valid = true)
    (hys : ∀ y ∈ ys, y.valid = true) (ht : decode tail = .incomplete) (ht' : decode tail' = .incomplete)
    (h : xs.flatMap StreamItem.bytes ++ tail = ys.flatMap StreamItem.bytes ++ tail') : xs = ys ∧ tail = tail' := by
  have head {x : StreamItem} (hx : x.valid = true) (rest : List Byte) : decode (x.bytes ++ rest) ≠ .incomplete :=
    decode_item hx rest ▸ x.received_ne_incomplete rest
  induction xs generalizing ys with
  | nil =>
    cases ys with
    | nil => exact ⟨rfl, h⟩
    | cons y ys =>
      rw [List.flatMap_nil, List.nil_append, List.flatMap_cons, List.append_assoc] at h
      exact absurd (h ▸ ht) (head (hys y List.mem_cons_self) _)
  | cons x xs ih =>
    obtain ⟨hx, hxs⟩ := List.forall_mem_cons.mp hxs
    cases ys with
    | nil =>
      rw [List.flatMap_nil, List.nil_append, List.flatMap_cons, List.append_assoc] at h
      exact absurd (h ▸ ht') (head hx _)
    | cons y ys =>
      obtain ⟨hy, hrest'⟩ := List.forall_mem_cons.mp hys
      simp only [List.flatMap_cons, List.append_assoc] at h
      have hr := congrArg decode h
      rw [decode_item hx, decode_item hy, StreamItem.received_inj] at hr
      obtain ⟨rfl, hrest⟩ := hr
      obtain ⟨rfl, htail⟩ := ih hxs hrest' hrest
      exact ⟨rfl, htail⟩

/-- Settles O49: a stream splits because each item shortens it, and uniquely because decoding tells the item at its head. -/
theorem everyStreamSplitsUniquely : Obligations.EveryStreamSplitsUniquely := by
  intro bs
  obtain ⟨xs, tail, hxs, ht, rfl⟩ := exists_split bs
  refine ⟨(xs, tail), ⟨hxs, ht, rfl⟩, fun p ⟨hys, ht', h⟩ => ?_⟩
  obtain ⟨h1, h2⟩ := split_unique hys hxs ht' ht h.symm
  exact Prod.ext h1 h2

/-! ### The length of a packet (rule R71) -/

/-- The length of a packet as its opcode and the bytes after it tell it, as soon as `CLEN` has come (rule R71). -/
def Opcode.need (o : Opcode) (bs : List Byte) : Option Nat :=
  match o with
  | .showFrame => some 1
  | .init | .setall | .close => bs.head?.map fun n => 6 + n.toNat
  | .set => bs.tail.head?.map fun n => 7 + n.toNat
  | .flash => bs.tail.head?.map fun n => 13 + n.toNat


theorem takeColorBright_eq_none {bs : List Byte} :
    takeColorBright bs = none ↔ ∀ n ∈ bs.head?, bs.length < 5 + n.toNat := by
  cases bs with
  | nil => simp [takeColorBright_eq_bind, takeColor]
  | cons n bs =>
    simp only [takeColorBright_eq_bind, List.head?_cons, Option.mem_def, Option.some.injEq, forall_eq', List.length_cons]
    cases h : takeBytes n.toNat bs with
    | none =>
      have := takeBytes_none.mp h
      simp only [takeColor, h, Option.bind_none, true_iff]
      omega
    | some p =>
      obtain ⟨hlen, hbs⟩ := takeBytes_eq_some.mp h
      have := congrArg List.length hbs
      rw [List.length_append] at this
      simp only [takeColor, h, Option.bind_some, Option.map_eq_none_iff, takeNat_eq_none]
      omega

theorem takeLamp_eq_none {bs : List Byte} :
    takeLamp bs = none ↔ ∀ n ∈ bs.tail.head?, bs.length < 6 + n.toNat := by
  cases bs with
  | nil => simp [takeLamp]
  | cons led bs =>
    rw [takeLamp_cons, Option.map_eq_none_iff, takeColorBright_eq_none, List.tail_cons, List.length_cons]
    exact forall₂_congr fun n _ => by omega

theorem takeTimesInterval_eq_none {bs : List Byte} : takeTimesInterval bs = none ↔ bs.length < 6 := by
  rw [takeTimesInterval_eq_bind]
  cases h : takeNat 2 bs with
  | none =>
    have := takeNat_eq_none.mp h
    simp only [Option.bind_none, true_iff]
    omega
  | some p =>
    obtain ⟨-, hbs⟩ := takeNat_eq_some.mp h
    have := congrArg List.length hbs
    rw [List.length_append, beBytes_length] at this
    simp only [Option.bind_some, Option.map_eq_none_iff, takeNat_eq_none]
    omega

theorem takeOperands_flash_eq_none {bs : List Byte} :
    takeOperands .flash bs = none ↔ ∀ n ∈ bs.tail.head?, bs.length < 12 + n.toNat := by
  rw [takeOperands_flash]
  cases h : takeLamp bs with
  | none =>
    simp only [Option.bind_none, true_iff]
    intro n hn
    have := takeLamp_eq_none.mp h n hn
    omega
  | some p =>
    obtain ⟨l, c, b, rest⟩ := p
    obtain ⟨hw, rfl⟩ := takeLamp_eq_some.mp h
    simp only [Bool.and_eq_true] at hw
    obtain ⟨⟨-, hc⟩, -⟩ := hw
    simp only [Option.bind_some, Option.map_eq_none_iff, takeTimesInterval_eq_none]
    simp [putLed, putColor, putBright_length, toNat_ofNat_length hc]
    omega

/-- The operands of a command are not all there exactly while fewer bytes have come than its packet needs. -/
theorem takeOperands_eq_none {o : Opcode} {bs : List Byte} :
    takeOperands o bs = none ↔ ∀ n ∈ o.need bs, bs.length + 1 < n := by
  cases o with
  | init | setall | close =>
    simp only [takeOperands, Option.map_eq_none_iff, takeColorBright_eq_none, Opcode.need, Option.forall_mem_map]
    exact forall₂_congr fun n _ => by omega
  | set =>
    simp only [takeOperands, Option.map_eq_none_iff, takeLamp_eq_none, Opcode.need, Option.forall_mem_map]
    exact forall₂_congr fun n _ => by omega
  | flash =>
    simp only [takeOperands_flash_eq_none, Opcode.need, Option.forall_mem_map]
    exact forall₂_congr fun n _ => by omega
  | showFrame => simp [takeOperands, Opcode.need]

theorem encode_length (i : Instr) : (encode i).length = i.packetLength := by
  cases i with
  | init c b => exact (Laws.EncodedLength.init c b).1
  | set l c b => exact (Laws.EncodedLength.set l c b).1
  | setall c b => exact (Laws.EncodedLength.setall c b).1
  | showFrame => rfl
  | flash l c b n d => exact (Laws.EncodedLength.flash l c b n d).1
  | close c b => exact (Laws.EncodedLength.close c b).1

/-- A packet is as long as its first bytes tell. -/
theorem need_putOperands {i : Instr} (hw : i.wellFormed = true) (rest : List Byte) :
    i.opcode.need (putOperands i ++ rest) = some i.packetLength := by
  have fits : ∀ c, colorFits c = true → c.length % 256 = c.length := fun c hc => by
    rw [← BitVec.toNat_ofNat c.length 8, toNat_ofNat_length hc]
  cases i <;> simp_all [Instr.opcode, Opcode.need, putOperands, putColor, putLed, Instr.wellFormed, Instr.packetLength]

/-- Settles O50: `Opcode.need` is the length the first bytes tell, and the decoder's parts fail exactly below it. -/
theorem packetLengthFromTheFirstBytes : Obligations.PacketLengthFromTheFirstBytes := by
  intro op o bs ho need
  have hneed : need = o.need bs := by cases o <;> rfl
  rw [hneed]
  refine ⟨(decode_eq_incomplete ho bs).trans takeOperands_eq_none, fun i rest hd => ⟨i.packetLength, ?_⟩⟩
  obtain ⟨hw, hbs⟩ := decode_eq_packet.mp hd
  obtain ⟨rfl, rfl⟩ := List.cons.inj hbs
  rw [opcodeOf_byte] at ho
  cases ho
  exact ⟨need_putOperands hw rest, by rw [hbs, ← encode_length, List.drop_left]⟩

/-- Settles O51: the decoder is run on each. -/
theorem writtenOutPacketsDecode : Obligations.WrittenOutPacketsDecode := by
  refine ⟨?_, ?_, ?_, ?_, ?_⟩ <;> decide

end Sys2Proof
end

section
/-! What a command makes of its operands (41_color_state.md sections 1 and 3): the arithmetic of `Scale` over all brightnesses (rules R92, R93),
its integer forms on a packet's brightness, and the hexadecimal digits of a colour (rule R91). -/

namespace Sys2Proof.Machine

-- One theorem at a time: the whole text is compiled at once, and its threads share one limit of memory.
set_option Elab.async false

/-! ### `Scale` -/

/-- Saturation, as a number (rules R11, R93). -/
theorem toNat_sat8 (n : Int) : ((sat8 n).toNat : Int) = min 255 (max 0 n) := by
  rw [sat8, BitVec.toNat_ofInt]
  simp only [Config.gammaEntries]
  omega

theorem toNat_scale (raw : Byte) (b : ℚ) :
    ((scale raw b).toNat : Int) = min 255 (max 0 ⌊(raw.toNat : ℚ) * b + 1 / 2⌋) :=
  toNat_sat8 _

theorem scale_zero_right (raw : Byte) : scale raw 0 = 0 := by
  have h := toNat_scale raw 0
  rw [mul_zero, zero_add, show ⌊(1 / 2 : ℚ)⌋ = 0 by norm_num] at h
  exact BitVec.eq_of_toNat_eq (by exact_mod_cast h)

theorem scale_zero_left (b : ℚ) : scale 0 b = 0 := by
  rw [scale, show ((0 : Byte).toNat : ℚ) = 0 from rfl, zero_mul, ← scale_zero_right 0, scale, mul_zero]

/-- A brightness of 1 leaves a channel as it is (rule R92): a half is not enough to round it up. -/
theorem scale_one (raw : Byte) : scale raw 1 = raw := by
  have floor : ⌊(raw.toNat : ℚ) + 1 / 2⌋ = raw.toNat := by
    rw [Int.floor_eq_iff]
    push_cast
    constructor <;> linarith
  have h := toNat_scale raw 1
  rw [mul_one, floor] at h
  have := raw.isLt
  exact BitVec.eq_of_toNat_eq (by omega)

/-- Settles O3: in [0, 1] the rounded product is an address of the table, so saturation leaves it (`scale_of_le_one`). -/
theorem scaleRoundsHalfUpInRange : Obligations.ScaleRoundsHalfUpInRange := by
  refine ⟨fun raw b h0 h1 => ?_, fun raw => ⟨scale_zero_right raw, scale_one raw⟩, scale_zero_left⟩
  obtain ⟨hlo, hhi⟩ := rhu_channel_mem_range raw h0 h1
  rw [rhu_eq_floor] at hlo hhi
  exact ⟨hlo, hhi, by rw [toNat_scale, max_eq_right hlo, min_eq_right hhi]⟩

/-- Where the rounded product is a quotient of natural numbers, `Scale` is their integer division, saturated (rules R92, R93). -/
theorem toNat_scale_of_eq_div {raw : Byte} {b : ℚ} {n d : Nat} (h : (raw.toNat : ℚ) * b + 1 / 2 = n / d) :
    (scale raw b).toNat = min 255 (n / d) := by
  have hs := toNat_scale raw b
  rw [h, Rat.floor_natCast_div_natCast, ← Int.natCast_ediv] at hs
  generalize n / d = q at hs ⊢
  omega

/-- Settles O4: the rounded product as a quotient of natural numbers. -/
theorem scaleOfPacketBrightnessIsIntegerDivision : Obligations.ScaleOfPacketBrightnessIsIntegerDivision := by
  intro raw B
  refine toNat_scale_of_eq_div ?_
  rw [Brightness.ofField_val]
  push_cast
  ring

/-- Settles O5: the same with the ramp's factor `k / 10`. -/
theorem rampOfPacketBrightnessIsIntegerDivision : Obligations.RampOfPacketBrightnessIsIntegerDivision := by
  intro raw B k _
  refine toNat_scale_of_eq_div ?_
  rw [rampUp, Brightness.ofField_val]
  push_cast [Config.rampSteps]
  ring

/-- `Scale` grows with the exact product (rules R92, R100). -/
theorem toNat_scale_le_toNat_scale {raw raw' : Byte} {b b' : ℚ} (h : (raw.toNat : ℚ) * b ≤ raw'.toNat * b') :
    (scale raw b).toNat ≤ (scale raw' b').toNat := by
  have hfloor := Int.floor_mono (add_le_add_left h (1 / 2))
  have hs := toNat_scale raw b
  have hs' := toNat_scale raw' b'
  omega

/-- Settles O6: the product grows in either factor, `Scale` with the product, and the table with its address. -/
theorem intensityIsMonotone : Obligations.IntensityIsMonotone :=
  ⟨fun _ _ _ hb h => toNat_correct_le_toNat_correct
      (toNat_scale_le_toNat_scale (mul_le_mul_of_nonneg_right (Nat.cast_le.mpr h) hb)),
    fun raw _ _ h => toNat_correct_le_toNat_correct
      (toNat_scale_le_toNat_scale (mul_le_mul_of_nonneg_left h raw.toNat.cast_nonneg))⟩

/-! ### The digits of a colour -/

theorem hexVal_eq_some {ch : Byte} {d : Nat} : hexVal ch = some d ↔ SpellsDigit ch d := by
  unfold hexVal SpellsDigit
  dsimp only
  split_ifs <;> simp <;> omega

theorem SpellsDigit.lt {ch : Byte} {d : Nat} (h : SpellsDigit ch d) : d < 16 := by
  unfold SpellsDigit at h
  omega

/-- Two characters spell a channel, the high digit first (rule R91). -/
theorem hexByte_eq_some {hi lo v : Byte} :
    hexByte hi lo = some v ↔ ∃ h l, SpellsDigit hi h ∧ SpellsDigit lo l ∧ v.toNat = 16 * h + l := by
  have hdef : hexByte hi lo = some v ↔
      ∃ h l, hexVal hi = some h ∧ hexVal lo = some l ∧ BitVec.ofNat 8 (16 * h + l) = v := by
    unfold hexByte
    cases hexVal hi <;> cases hexVal lo <;> simp
  simp only [hdef, hexVal_eq_some]
  refine exists₂_congr fun h l => and_congr_right fun hh => and_congr_right fun hl => ?_
  have := hh.lt
  have := hl.lt
  rw [← BitVec.toNat_inj, BitVec.toNat_ofNat, Nat.mod_eq_of_lt (by omega), eq_comm]

theorem parseColor_six (c0 c1 c2 c3 c4 c5 : Byte) (rgb : Rgb) : parseColor [c0, c1, c2, c3, c4, c5] = some rgb ↔
    hexByte c0 c1 = some rgb.r ∧ hexByte c2 c3 = some rgb.g ∧ hexByte c4 c5 = some rgb.b := by
  have hdef : parseColor [c0, c1, c2, c3, c4, c5] = match hexByte c0 c1, hexByte c2 c3, hexByte c4 c5 with
    | some r, some g, some b => some ⟨r, g, b⟩
    | some _, some _, none => none
    | some _, none, _ => none
    | none, _, _ => none := rfl
  obtain ⟨r, g, b⟩ := rgb
  rw [hdef]
  cases hexByte c0 c1 <;> cases hexByte c2 c3 <;> cases hexByte c4 c5 <;> simp

theorem exists_six_of_parseColor {c : Color} {rgb : Rgb} (h : parseColor c = some rgb) :
    ∃ c0 c1 c2 c3 c4 c5, c = [c0, c1, c2, c3, c4, c5] := by
  have hlen : c.length = 6 := by
    by_contra hlen
    simp [parseColor, hlen] at h
  match c, hlen with
  | [c0, c1, c2, c3, c4, c5], _ => exact ⟨c0, c1, c2, c3, c4, c5, rfl⟩

/-- Settles O7: the colour has six characters, and each pair of them spells a channel. -/
theorem parseColorReadsSixHexDigits : Obligations.ParseColorReadsSixHexDigits := by
  intro c rgb
  constructor
  · intro h
    obtain ⟨c0, c1, c2, c3, c4, c5, rfl⟩ := exists_six_of_parseColor h
    simp only [parseColor_six, hexByte_eq_some] at h
    obtain ⟨⟨d0, d1, h0, h1, hr⟩, ⟨d2, d3, h2, h3, hg⟩, d4, d5, h4, h5, hb⟩ := h
    exact ⟨c0, c1, c2, c3, c4, c5, d0, d1, d2, d3, d4, d5, rfl, h0, h1, h2, h3, h4, h5, hr, hg, hb⟩
  · rintro ⟨c0, c1, c2, c3, c4, c5, d0, d1, d2, d3, d4, d5, rfl, h0, h1, h2, h3, h4, h5, hr, hg, hb⟩
    simp only [parseColor_six, hexByte_eq_some]
    exact ⟨⟨d0, d1, h0, h1, hr⟩, ⟨d2, d3, h2, h3, hg⟩, d4, d5, h4, h5, hb⟩

end Sys2Proof.Machine
end

section
/-! The frame on the lines (42_protocol_encoder.md): line writes up to a refused one (rule R123), what `SHOW` does with them, and what a frame
determines and counts (rules R118, R119). -/

namespace Sys2Proof.Machine

-- One theorem at a time: the whole text is compiled at once, and its threads share one limit of memory.
set_option Elab.async false

/-! ### Line writes, accepted and refused -/

/-- Line writes of which the one numbered `n` is refused: the events before it, and `X` on its line (rules R110, R123). -/
theorem sendAll_refused_at {s : State} {ws : List LineWrite} {n : Nat} {e : PinErr} (hn : n < ws.length)
    (h : s.RefusesAfter n e) :
    sendAll ws s = .raised (.pinError e) ((s.sent (ws.take n)).countWrite.setLine ws[n].1 .x) := by
  have hlen : (ws.take n).length = n := List.length_take_of_le hn.le
  conv_lhs => rw [← List.take_append_drop n ws, List.drop_eq_getElem_cons hn]
  exact sendAll_refused (hlen.symm ▸ h)

/-- Settles O8: a pulse is two line writes, accepted or refused as any others. -/
theorem clockPulseIsHighThenLow : Obligations.ClockPulseIsHighThenLow := by
  refine ⟨fun s h => ?_, fun s e h => ?_, fun s e h => ?_⟩
  · rw [clockPulse_eq, sendAll_accepted h]
    simp [pulseWrites, State.sent, State.wrote, State.setLine, State.emit, State.countWrite, LineWrite.event]
  · exact (clockPulse_eq s).trans (sendAll_refused_at (by decide) h)
  · rw [clockPulse_eq, sendAll_refused_at (by decide) h]
    rfl

/-- A frame with a refused write (rule R123). -/
theorem writeFrame_refused {s : State} {n : Nat} {e : PinErr} (hn : n < 898) (h : s.RefusesAfter n e) :
    ∃ w : LineWrite, (frameEvents s.strip)[n]? = some (LineWrite.event w) ∧ writeFrame s =
      .raised (.pinError e) ((s.sent ((frameLineWrites s.strip).take n)).countWrite.setLine w.1 .x) := by
  have hn : n < (frameLineWrites s.strip).length := by rwa [frameLineWrites_length]
  refine ⟨(frameLineWrites s.strip)[n], ?_, (writeFrame_eq s).trans (sendAll_refused_at hn h)⟩
  rw [frameEvents_eq, List.getElem?_map, List.getElem?_eq_getElem hn]
  rfl

/-- Settles O12: the frame's line writes are the events of the closed form. -/
theorem showSendsTheFrame : Obligations.ShowSendsTheFrame := by
  intro s hs h
  change execShow s = _
  rw [execShow, gate_active hs (by decide), Run.done_andThen, writeFrame_accepted h, complete_done, frameEvents_eq]
  rfl

/-- Settles O13: the frame's line writes before the refused one are its events before it. -/
theorem showStopsAtARefusedWrite : Obligations.ShowStopsAtARefusedWrite := by
  intro s n e hs hn h
  obtain ⟨w, hw, hf⟩ := writeFrame_refused hn h
  have hexec : exec .showFrame s = .next (takeFault (.pinError e)
      ((s.sent ((frameLineWrites s.strip).take n)).countWrite.setLine w.1 .x)) := by
    change execShow s = _
    rw [execShow, gate_active hs (by decide), Run.done_andThen, hf, complete_raised]
  have hlen : ((frameLineWrites s.strip).take n).length = n :=
    List.length_take_of_le (by rw [frameLineWrites_length]; exact hn.le)
  refine ⟨_, hexec, rfl, ?_, ?_, ?_, fun l hl => ?_, fun l hl => ?_, ?_, ?_, ?_⟩
  · simp [Status.response, CmdFault.code, CmdFault.payload]
  · simp [frameEvents_eq, List.map_take]
  · simp [hlen]
  · obtain ⟨line, level⟩ := w
    cases hw.symm.trans hl
    rfl
  · obtain ⟨line, level⟩ := w
    cases hw.symm.trans hl
    rfl
  all_goals simp

/-! ### What a frame determines -/

/-- Settles O14: every part of the frame writes the data line before it pulses. -/
theorem frameSamplesToFrameBits : Obligations.FrameSamplesToFrameBits :=
  fun st last => sampledBits_frameEvents last st

/-- The bits of a frame tell every byte of every packet (rule R118). -/
theorem frameByte_eq_of_frameBits_eq {a b : Strip} (h : frameBits a = frameBits b) (i : Fin 8) {j : Nat} (hj : j < 4) :
    frameByte a i j = frameByte b i j := by
  refine BitVec.eq_of_getLsbD_eq fun p hp => ?_
  have hi := i.isLt
  have hq : 32 + (32 * i.val + 8 * j + (7 - p)) ∈ List.range Config.framePulses :=
    List.mem_range.mpr (show _ < 320 by omega)
  have hbit := List.map_inj_left.mp h _ hq
  rwa [frameBit_packet a i j (7 - p) hj (by omega), frameBit_packet b i j (7 - p) hj (by omega),
    show 7 - (7 - p) = p by omega] at hbit

/-- The bits of a frame tell the strip (rule R118). -/
theorem frameBits_injective {a b : Strip} (h : frameBits a = frameBits b) : a = b := by
  refine Vector.ext fun i hi => ?_
  have byte {j : Nat} (hj : j < 4) := frameByte_eq_of_frameBits_eq h ⟨i, hi⟩ hj
  have blue : a[i].blue = b[i].blue := byte (j := 1) (by decide)
  have green : a[i].green = b[i].green := byte (j := 2) (by decide)
  have red : a[i].red = b[i].red := byte (j := 3) (by decide)
  calc a[i] = ⟨a[i].red, a[i].green, a[i].blue⟩ := rfl
    _ = ⟨b[i].red, b[i].green, b[i].blue⟩ := by rw [red, green, blue]

/-- Settles O15: the events sample to the bits, and the bits are every byte of every lamp. -/
theorem frameDeterminesTheStrip : Obligations.FrameDeterminesTheStrip := by
  refine ⟨fun a b h => frameBits_injective h, fun a b h => frameBits_injective ?_⟩
  have hs : (frameBits a).map LineLevel.driven = (frameBits b).map .driven := by
    rw [← sampledBits_frameEvents .x, ← sampledBits_frameEvents .x, h]
  exact List.map_injective_iff.mpr (fun _ _ => LineLevel.driven.inj) hs

/-! ### What a frame counts -/

section Counts

variable (p : LineWrite → Bool)

theorem countP_pulses (n : Nat) : (List.replicate n pulseWrites).flatten.countP p =
    n * (p (.clk, true)).toNat + n * (p (.clk, false)).toNat := by
  have pulse : pulseWrites.countP p = (p (.clk, true)).toNat + (p (.clk, false)).toNat := by
    cases h : p (.clk, true) <;> cases h' : p (.clk, false) <;> simp [pulseWrites, h, h']
  rw [List.countP_flatten, List.map_replicate, List.sum_replicate, pulse, smul_eq_mul, Nat.mul_add]

theorem countP_holdWrites (x : Bool) (n : Nat) : (holdWrites x n).countP p =
    (p (.data, x)).toNat + n * (p (.clk, true)).toNat + n * (p (.clk, false)).toNat := by
  rw [holdWrites, List.countP_cons, countP_pulses]
  cases p (.data, x) <;> simp [Nat.add_comm, Nat.add_left_comm]

theorem countP_bitWrites (x : Bool) : (bitWrites x).countP p =
    (p (.data, x)).toNat + (p (.clk, true)).toNat + (p (.clk, false)).toNat := by
  have h := countP_holdWrites p x 1
  rwa [one_mul, one_mul] at h

/-- A frame is 258 writes of the data line and 320 of each level of the clock line (rule R119). -/
theorem countP_frameLineWrites (hp : p (.data, true) = p (.data, false)) (st : Strip) : (frameLineWrites st).countP p =
    258 * (p (.data, false)).toNat + 320 * (p (.clk, true)).toNat + 320 * (p (.clk, false)).toNat := by
  have bit (q : Nat) : (bitWrites (frameBit st (32 + q))).countP p =
      (p (.data, false)).toNat + (p (.clk, true)).toNat + (p (.clk, false)).toNat := by
    rw [countP_bitWrites]
    cases frameBit st (32 + q) <;> simp [hp]
  rw [frameLineWrites, lampPackets_eq_bits, List.countP_append, List.countP_append, countP_holdWrites, countP_holdWrites,
    hp, List.countP_flatMap, Function.comp_def, List.map_congr_left fun q _ => bit q,
    List.map_const', List.sum_replicate, List.length_range]
  simp only [Config.startPulses, Config.endPulses, smul_eq_mul]
  omega

end Counts

/-- The same count of a frame's events. -/
theorem countP_frameEvents (p : Event → Bool) (hp : p (.write .data true) = p (.write .data false)) (st : Strip) :
    (frameEvents st).countP p = 258 * (p (.write .data false)).toNat + 320 * (p (.write .clk true)).toNat +
      320 * (p (.write .clk false)).toNat := by
  rw [frameEvents_eq, List.countP_map]
  exact countP_frameLineWrites (p ∘ LineWrite.event) hp st

theorem frameBits_length (st : Strip) : (frameBits st).length = 320 := by
  rw [frameBits, List.length_map, List.length_range, Config.derived_constants.2.1]

/-- Settles O16: each of the counts is one of the kinds of line write that a frame is made of. -/
theorem frameHas898WritesAnd320Pulses : Obligations.FrameHas898WritesAnd320Pulses := by
  intro st
  refine ⟨frameEvents_length st, frameBits_length st, ?_, ?_, ?_⟩
  · exact countP_frameEvents _ rfl st
  · exact countP_frameEvents _ rfl st
  · exact countP_frameEvents _ rfl st

end Sys2Proof.Machine
end

section
/-! A score: the frames and pauses that a command sends, each frame with the strip it carries (43_animation_engine.md). Every statement of a
command whose operands are valid plays a score, and what playing one can do is said here once: all its line writes accepted, or one refused. -/

namespace Sys2Proof.Machine

-- One theorem at a time: the whole text is compiled at once, and its threads share one limit of memory.
set_option Elab.async false

/-- One thing a command sends. -/
inductive Cue where
  /-- The lamps are set to `st` and a frame is written (rule R117). -/
  | frame (st : Strip)
  /-- A pause (rule R135). -/
  | pause (d : Duration)

/-- The events of a cue whose line writes are all accepted (rules R119, R135). -/
def Cue.events : Cue → List Event
  | .frame st => frameEvents st
  | .pause d => [.pause d]

/-- A cue that is a frame. -/
def Cue.isFrame : Cue → Bool
  | .frame _ => true
  | .pause _ => false

/-- The events of a score. -/
def cueEvents (cs : List Cue) : List Event := cs.flatMap Cue.events

/-- How many line writes a score has (rule R117: 898 for each frame). -/
def cueWrites (cs : List Cue) : Nat := 898 * cs.countP Cue.isFrame

/-- A score is played: each frame is written from the strip it carries, and `final` is the strip after it. -/
def play (final : Strip) : List Cue → State → Run
  | [], s => .done { s with strip := final }
  | .frame st :: cs, s => (writeFrame { s with strip := st }).andThen (play final cs)
  | .pause d :: cs, s => (pause d s).andThen (play final cs)

/-! ### Scores one after another -/

/-- The strip that a score begins from is not looked at: every frame brings its own. -/
theorem play_strip (final st : Strip) (cs : List Cue) (s : State) : play final cs { s with strip := st } = play final cs s := by
  induction cs generalizing s with
  | nil => rfl
  | cons c cs ih =>
    cases c with
    | frame => rfl
    | pause d => exact ih (s.emit (.pause d))

theorem play_append (mid final : Strip) (as bs : List Cue) (s : State) :
    play final (as ++ bs) s = (play mid as s).andThen (play final bs) := by
  induction as generalizing s with
  | nil => exact (play_strip final mid bs s).symm
  | cons c as ih =>
    cases c with
    | frame | pause =>
      simp only [List.cons_append, play, Run.andThen_assoc]
      exact congrArg _ (funext ih)

/-- A statement that follows a score sees the score's last strip. -/
theorem play_andThen_congr {final : Strip} {cs : List Cue} {s : State} {f g : State → Run}
    (h : ∀ t : State, t.strip = final → f t = g t) : (play final cs s).andThen f = (play final cs s).andThen g := by
  induction cs generalizing s with
  | nil => exact h _ rfl
  | cons c cs ih =>
    cases c with
    | frame | pause =>
      simp only [play, Run.andThen_assoc]
      exact congrArg _ (funext fun _ => ih)

/-- From the strip `st`, the statement plays a score and leaves the strip `final`. -/
def Plays (st : Strip) (body : State → Run) (cs : List Cue) (final : Strip) : Prop :=
  ∀ s : State, s.strip = st → body s = play final cs s

theorem Plays.andThen {a b c : Strip} {f g : State → Run} {cs ds : List Cue} (hf : Plays a f cs b) (hg : Plays b g ds c) :
    Plays a (fun s => (f s).andThen g) (cs ++ ds) c := by
  intro s hs
  show (f s).andThen g = _
  rw [hf s hs, play_append b]
  exact play_andThen_congr hg

theorem plays_writeFrame (st : Strip) : Plays st writeFrame [.frame st] st := by
  rintro s rfl
  have h := writeFrame_eq s
  have hs := sendAll_strip (frameLineWrites s.strip) s
  rw [← h] at hs
  show writeFrame s = (writeFrame s).andThen fun t => .done { t with strip := s.strip }
  cases hr : writeFrame s with
  | done t =>
    rw [hr, Run.state_done] at hs
    rw [Run.done_andThen, ← hs]
  | raised f t => rfl

theorem plays_pause (st : Strip) (d : Duration) : Plays st (pause d) [.pause d] st := by
  rintro s rfl
  rfl

theorem plays_done (st : Strip) : Plays st .done [] st := by
  rintro s rfl
  rfl

/-- A statement that only stores to lamp registers plays nothing. -/
theorem plays_of_done {st final : Strip} {body : State → Run}
    (h : ∀ s : State, s.strip = st → body s = .done { s with strip := final }) : Plays st body [] final :=
  h

/-! ### A score whose line writes are all accepted -/

/-- The state after a score. The lines are as the last frame left them (rule R117), if there was one. -/
def State.played (s : State) (cs : List Cue) (final : Strip) : State := { s with
  strip := final
  dat := if cs.countP Cue.isFrame = 0 then s.dat else .driven true
  clk := if cs.countP Cue.isFrame = 0 then s.clk else .driven false
  trace := s.trace ++ cueEvents cs
  pinWrites := s.pinWrites + cueWrites cs }

/-- The state after a frame of `st` (rule R117). -/
def State.framed (s : State) (st : Strip) : State := { s with
  strip := st
  dat := .driven true
  clk := .driven false
  trace := s.trace ++ frameEvents st
  pinWrites := s.pinWrites + 898 }

theorem writeFrame_framed {s : State} (st : Strip) (h : s.AcceptsNext 898) :
    writeFrame { s with strip := st } = .done (s.framed st) := by
  rw [State.framed, frameEvents_eq]
  exact writeFrame_accepted (s := { s with strip := st }) h

theorem cueWrites_frame (st : Strip) (cs : List Cue) : cueWrites (.frame st :: cs) = 898 + cueWrites cs := by
  simp only [cueWrites, List.countP_cons, Cue.isFrame, if_true]
  omega

theorem cueWrites_pause (d : Duration) (cs : List Cue) : cueWrites (.pause d :: cs) = cueWrites cs := by
  simp [cueWrites, Cue.isFrame]

theorem play_accepted {s : State} {final : Strip} {cs : List Cue} (h : s.AcceptsNext (cueWrites cs)) :
    play final cs s = .done (s.played cs final) := by
  induction cs generalizing s with
  | nil => simp [play, State.played, cueEvents, cueWrites]
  | cons c cs ih =>
    cases c with
    | frame st =>
      rw [cueWrites_frame] at h
      rw [play, writeFrame_framed st (AcceptsNext.of_le h (Nat.le_add_right ..)), Run.done_andThen,
        ih (s := s.framed st) (AcceptsNext.shift h rfl rfl)]
      simp [State.played, State.framed, cueWrites_frame, cueEvents, Cue.events, Cue.isFrame, Nat.add_assoc]
    | pause d =>
      rw [cueWrites_pause] at h
      rw [play, pause, Run.done_andThen, ih (s := s.emit (.pause d)) h]
      simp [State.played, cueWrites_pause, cueEvents, Cue.events, Cue.isFrame, State.emit]

/-! ### What the events of a score count -/

theorem frameEvents_isWrite {st : Strip} {e : Event} (h : e ∈ frameEvents st) : e.isWrite = true := by
  rw [frameEvents_eq] at h
  obtain ⟨w, -, rfl⟩ := List.mem_map.mp h
  rfl

theorem pinTrace_append (es fs : List Event) : pinTrace (es ++ fs) = pinTrace es ++ pinTrace fs := List.filter_append ..

/-- Line writes are all pin trace (rule R33). -/
theorem pinTrace_of_isWrite {es : List Event} (h : ∀ e ∈ es, e.isWrite = true) : pinTrace es = es := by
  refine List.filter_eq_self.mpr fun e he => ?_
  cases e with
  | write => rfl
  | rel => rfl
  | pause => exact nomatch h _ he

theorem countP_isWrite_frameEvents (st : Strip) : (frameEvents st).countP Event.isWrite = 898 := by
  rw [List.countP_eq_length.mpr fun _ => frameEvents_isWrite, frameEvents_length]

theorem countP_isPause_frameEvents (st : Strip) : (frameEvents st).countP Event.isPause = 0 := by
  simpa [Event.isPause] using countP_frameEvents Event.isPause rfl st

theorem countP_isWrite_cueEvents (cs : List Cue) : (cueEvents cs).countP Event.isWrite = cueWrites cs := by
  induction cs with
  | nil => rfl
  | cons c cs ih =>
    rw [cueEvents, List.flatMap_cons, List.countP_append, ← cueEvents, ih]
    cases c with
    | frame st => rw [cueWrites_frame, Cue.events, countP_isWrite_frameEvents]
    | pause d => rw [cueWrites_pause]; exact Nat.zero_add _

theorem countP_isPause_cueEvents (cs : List Cue) :
    (cueEvents cs).countP Event.isPause = cs.countP fun c => !c.isFrame := by
  induction cs with
  | nil => rfl
  | cons c cs ih =>
    rw [cueEvents, List.flatMap_cons, List.countP_append, ← cueEvents, ih, List.countP_cons, Nat.add_comm]
    cases c with
    | frame st => rw [Cue.events, countP_isPause_frameEvents]; rfl
    | pause d => rfl

theorem Cue.pinTrace_length (c : Cue) : (pinTrace c.events).length = c.events.countP Event.isWrite := by
  cases c with
  | frame st =>
    show (pinTrace (frameEvents st)).length = (frameEvents st).countP Event.isWrite
    rw [pinTrace_of_isWrite fun _ => frameEvents_isWrite, countP_isWrite_frameEvents, frameEvents_length]
  | pause d => rfl

theorem pinTrace_cueEvents_length (cs : List Cue) : (pinTrace (cueEvents cs)).length = cueWrites cs := by
  rw [← countP_isWrite_cueEvents]
  induction cs with
  | nil => rfl
  | cons c cs ih =>
    rw [cueEvents, List.flatMap_cons, pinTrace_append, List.length_append, List.countP_append, c.pinTrace_length]
    exact congrArg _ ih

/-- A score has no release: only `Shutdown` releases, after its last frame (rule R141). -/
theorem count_rel_cueEvents (cs : List Cue) : (cueEvents cs).count .rel = 0 := by
  refine List.count_eq_zero.mpr fun h => ?_
  obtain ⟨c, -, hc⟩ := List.mem_flatMap.mp h
  cases c with
  | frame st => exact absurd (frameEvents_isWrite (st := st) hc) (by decide)
  | pause d => exact absurd (List.mem_singleton.mp hc) nofun

/-! ### A score with a refused line write -/

/-- `t` is where a score begun in `s` stands when its line write numbered `n` has been refused (rule R123). -/
structure State.StoppedAt (s t : State) (cs : List Cue) (n : Nat) : Prop where
  /-- The first `n` line writes were made, with the pauses between them, and no more. -/
  trace : ∃ es, t.trace = s.trace ++ es ∧ pinTrace es = (pinTrace (cueEvents cs)).take n ∧
    es.countP Event.isWrite = n ∧ es.count .rel = 0
  /-- The refused one was asked for too. -/
  pinWrites : t.pinWrites = s.pinWrites + n + 1
  /-- The strip is that of the frame it fell in. -/
  strip : Cue.frame t.strip ∈ cs
  /-- Nothing else has changed but the lines. -/
  others : t = { s with strip := t.strip, dat := t.dat, clk := t.clk, trace := t.trace, pinWrites := t.pinWrites }

section StoppedAt

variable {s t : State} {cs : List Cue} {n : Nat} (h : s.StoppedAt t cs n)
include h

theorem State.StoppedAt.dstate : t.dstate = s.dstate := by rw [h.others]
theorem State.StoppedAt.status : t.status = s.status := by rw [h.others]
theorem State.StoppedAt.own : t.own = s.own := by rw [h.others]
theorem State.StoppedAt.input : t.input = s.input := by rw [h.others]
theorem State.StoppedAt.resets : t.resets = s.resets := by rw [h.others]
theorem State.StoppedAt.output : t.output = s.output := by rw [h.others]
theorem State.StoppedAt.faultLog : t.faultLog = s.faultLog := by rw [h.others]
theorem State.StoppedAt.pins : t.pins = s.pins := by rw [h.others]

end StoppedAt

theorem writeFrame_stopped {s : State} {cs : List Cue} {n : Nat} {e : PinErr} (hn : n < 898) (h : s.RefusesAfter n e) :
    ∃ t, writeFrame s = .raised (.pinError e) t ∧ s.StoppedAt t (.frame s.strip :: cs) n := by
  obtain ⟨w, -, hw⟩ := writeFrame_refused hn h
  have hlen : ((frameEvents s.strip).take n).length = n :=
    List.length_take_of_le (by rw [frameEvents_length]; exact hn.le)
  have writes : ∀ e ∈ (frameEvents s.strip).take n, e.isWrite = true := fun e he =>
    frameEvents_isWrite (List.mem_of_mem_take he)
  refine ⟨_, hw, ⟨(frameEvents s.strip).take n, ?_, ?_, ?_, ?_⟩, ?_, ?_, ?_⟩
  · simp [frameEvents_eq, List.map_take]
  · rw [pinTrace_of_isWrite writes, cueEvents, List.flatMap_cons, Cue.events, pinTrace_append,
      pinTrace_of_isWrite fun e he => frameEvents_isWrite he, List.take_append_of_le_length]
    rw [frameEvents_length]
    exact hn.le
  · rw [List.countP_eq_length.mpr writes, hlen]
  · exact List.count_eq_zero.mpr fun hrel => absurd (writes _ hrel) (by decide)
  · simp [List.length_take, frameLineWrites_length]
    omega
  · simp
  · ext : 1 <;> simp

/-- What was played before a score that stopped belongs to what stopped. -/
theorem State.StoppedAt.cons {s s' t : State} {c : Cue} {cs : List Cue} {n : Nat}
    (ht : s'.StoppedAt t cs n) (htrace : s'.trace = s.trace ++ c.events)
    (hwrites : s'.pinWrites = s.pinWrites + c.events.countP Event.isWrite)
    (hothers : s' = { s with strip := s'.strip, dat := s'.dat, clk := s'.clk, trace := s'.trace, pinWrites := s'.pinWrites }) :
    s.StoppedAt t (c :: cs) (c.events.countP Event.isWrite + n) := by
  obtain ⟨⟨es, het, hpin, hcount, hrel⟩, hw, hstrip, ho⟩ := ht
  have hc : cueEvents (c :: cs) = c.events ++ cueEvents cs := List.flatMap_cons
  have hcrel : c.events.count .rel = 0 := by
    have := count_rel_cueEvents [c]
    rwa [cueEvents, List.flatMap_singleton] at this
  refine ⟨⟨c.events ++ es, ?_, ?_, ?_, ?_⟩, ?_, List.mem_cons_of_mem _ hstrip, ?_⟩
  · rw [het, htrace, List.append_assoc]
  · rw [hc, pinTrace_append, pinTrace_append, hpin, ← c.pinTrace_length, List.take_length_add_append]
  · rw [List.countP_append, hcount]
  · rw [List.count_append, hrel, hcrel]
  · rw [hw, hwrites]; omega
  · rw [ho, hothers]

theorem play_refused {s : State} {final : Strip} {cs : List Cue} {n : Nat} {e : PinErr} (hn : n < cueWrites cs)
    (h : s.RefusesAfter n e) : ∃ t, play final cs s = .raised (.pinError e) t ∧ s.StoppedAt t cs n := by
  induction cs generalizing s n with
  | nil => exact absurd hn (Nat.not_lt_zero n)
  | cons c cs ih =>
    cases c with
    | frame st =>
      rw [cueWrites_frame] at hn
      by_cases hfirst : n < 898
      · obtain ⟨t, hw, ht⟩ := writeFrame_stopped (s := { s with strip := st }) (cs := cs) hfirst h
        exact ⟨t, by rw [play, hw, Run.raised_andThen], ht.trace, ht.pinWrites, ht.strip, ht.others⟩
      · obtain ⟨m, rfl⟩ := Nat.exists_eq_add_of_le (Nat.le_of_not_lt hfirst)
        have hrest := h.2
        rw [← Nat.add_assoc] at hrest
        obtain ⟨t, hp, ht⟩ := ih (s := s.framed st) (by omega) ⟨AcceptsNext.shift h.1 rfl rfl, hrest⟩
        have hcount : (Cue.frame st).events.countP Event.isWrite = 898 := countP_isWrite_frameEvents st
        refine ⟨t, by
          rw [play, writeFrame_framed st (AcceptsNext.of_le h.1 (Nat.le_add_right ..)), Run.done_andThen, hp], ?_⟩
        have := ht.cons (s := s) (c := .frame st) rfl (by rw [hcount]; rfl) rfl
        rwa [hcount] at this
    | pause d =>
      rw [cueWrites_pause] at hn
      obtain ⟨t, hp, ht⟩ := ih (s := s.emit (.pause d)) hn h
      have := ht.cons (s := s) (c := .pause d) rfl rfl rfl
      exact ⟨t, hp, (Nat.zero_add n) ▸ this⟩

end Sys2Proof.Machine
end

section
/-! The scripted sequences as scores (43_animation_engine.md): `Startup`, `Shutdown` and `Flash` with valid operands each play a score, whose
events are the closed form of Machine/Observe.lean. The lamps are followed from frame to frame as `sweepStrip`s. -/

namespace Sys2Proof.Machine

-- One theorem at a time: the whole text is compiled at once, and its threads share one limit of memory.
set_option Elab.async false

/-! ### The strip that a fade goes through (rules R137, R141) -/

theorem partner_val (i : Fin Config.numLamps) : (partner i).val = 7 - i.val :=
  (Fin.val_rev i).trans (show 8 - (i.val + 1) = 7 - i.val by omega)

/-- A lamp of such a strip, by its number. -/
theorem sweepStrip_getElem (i : Fin Config.numLamps) (pair between : LampSetting) (j : Nat) (hj : j < Config.numLamps) :
    (sweepStrip i pair between)[j] = if j = i.val ∨ j = 7 - i.val then pair
      else if i.val < j ∧ j < 7 - i.val then between else LampSetting.off := by
  simp only [sweepStrip, Vector.getElem_ofFn, Fin.ext_iff, Fin.lt_def, partner_val]

/-- `setPair` replaces the value of the pair and leaves the lamps between and outside it (rule R142). -/
theorem sweepStrip_set_pair (i : Fin Config.numLamps) (x v between : LampSetting) :
    ((sweepStrip i x between).set i v).set (partner i) v = sweepStrip i v between := by
  refine Vector.ext fun j hj => ?_
  simp only [Vector.getElem_set, sweepStrip_getElem, partner_val]
  grind

/-- The lamps between a lit pair are those between the next pair outwards, which is dark (rules R137, R141). -/
theorem sweepStrip_next {i j : Fin Config.numLamps} (hi : i.val < 3) (hj : j.val = i.val + 1) (v : LampSetting) :
    sweepStrip j v v = sweepStrip i LampSetting.off v := by
  refine Vector.ext fun k (hk : k < 8) => ?_
  simp only [sweepStrip_getElem]
  grind

theorem sweepStrip_innermost_off (v : LampSetting) : sweepStrip 3 LampSetting.off v = Strip.off := by
  refine Vector.ext fun k (hk : k < 8) => ?_
  simp only [sweepStrip_getElem, Strip.off, Vector.getElem_replicate, show (3 : Fin Config.numLamps).val = 3 from rfl]
  grind

theorem sweepStrip_outermost (v : LampSetting) : sweepStrip 0 v v = Vector.replicate Config.numLamps v := by
  refine Vector.ext fun k (hk : k < 8) => ?_
  simp only [sweepStrip_getElem, Vector.getElem_replicate, show (0 : Fin Config.numLamps).val = 0 from rfl]
  grind

/-! ### A fade of one pair -/

/-- The score of the stepped frames of a pair (rules R137, R141, R147). -/
def rampCues (rgb : Rgb) (b : ℚ) (ramp : Nat → ℚ) (i : Fin Config.numLamps) (ks : List Nat) : List Cue :=
  ks.flatMap fun k => [.frame (sweepStrip i (lampValue rgb (ramp k)) (lampValue rgb b)), .pause Config.animPause]

/-- The score of a pair's fade: its stepped frames, and one at its last value (rules R137, R141). -/
def fadeCues (rgb : Rgb) (b : ℚ) (ramp : Nat → ℚ) (i : Fin Config.numLamps) (last : LampSetting) : List Cue :=
  rampCues rgb b ramp i (List.range Config.rampSteps) ++ [.frame (sweepStrip i last (lampValue rgb b))]

/-- The score of `Startup` (rule R137). -/
def startupCues (rgb : Rgb) (b : ℚ) : List Cue :=
  ([3, 2, 1, 0].flatMap fun i => fadeCues rgb b (rampUp b) i (lampValue rgb b)) ++ [.frame Strip.off]

/-- The score of `Shutdown`, which the release follows (rule R141). -/
def shutdownCues (rgb : Rgb) (b : ℚ) : List Cue :=
  .frame (Vector.replicate Config.numLamps (lampValue rgb b)) ::
    [0, 1, 2, 3].flatMap fun i => fadeCues rgb b (rampDown b) i LampSetting.off

/-- The score of `Flash` (rule R139). -/
def flashCues (st : Strip) (i : Fin Config.numLamps) (on : LampSetting) (times : Nat) (d : Duration) : List Cue :=
  (List.replicate times [.frame (st.set i on), .pause d, .frame (st.set i LampSetting.off), .pause d]).flatten

theorem plays_setPairOff (i : Fin Config.numLamps) (x between : LampSetting) :
    Plays (sweepStrip i x between) (setPairOff i) [] (sweepStrip i LampSetting.off between) := by
  refine plays_of_done fun s hs => ?_
  rw [← sweepStrip_set_pair i x, ← hs]
  rfl

section Ramp

variable {c : Color} {rgb : Rgb} (hc : parseColor c = some rgb)
include hc

theorem plays_setPair (b : ℚ) (i : Fin Config.numLamps) (x between : LampSetting) :
    Plays (sweepStrip i x between) (setPair c b i) [] (sweepStrip i (lampValue rgb b) between) := by
  refine plays_of_done fun s hs => ?_
  rw [setPair, setLamp_fin hc, Run.done_andThen, setLamp_fin hc, ← sweepStrip_set_pair i x, ← hs]
  rfl

theorem plays_ramp (b : ℚ) (ramp : Nat → ℚ) (i : Fin Config.numLamps) (ks : List Nat) (x : LampSetting) :
    Plays (sweepStrip i x (lampValue rgb b))
      (forEach ks fun k s => ((setPair c (ramp k) i s).andThen writeFrame).andThen animPause)
      (rampCues rgb b ramp i ks)
      (sweepStrip i (ks.foldl (fun _ k => lampValue rgb (ramp k)) x) (lampValue rgb b)) := by
  induction ks generalizing x with
  | nil => exact plays_done _
  | cons k ks ih =>
    exact (((plays_setPair hc (ramp k) i x _).andThen (plays_writeFrame _)).andThen (plays_pause _ _)).andThen (ih _)

/-- A fade of a pair, and then one frame of it at its last value (rules R137, R141). -/
theorem plays_fade (b : ℚ) (ramp : Nat → ℚ) (i : Fin Config.numLamps) (x last : LampSetting) {setLast : State → Run}
    (hlast : ∀ y, Plays (sweepStrip i y (lampValue rgb b)) setLast [] (sweepStrip i last (lampValue rgb b))) :
    Plays (sweepStrip i x (lampValue rgb b)) (fun s => ((rampPair c ramp i s).andThen setLast).andThen writeFrame)
      (fadeCues rgb b ramp i last) (sweepStrip i last (lampValue rgb b)) :=
  ((plays_ramp hc b ramp i (List.range 10) x).andThen (hlast _)).andThen (plays_writeFrame _)

/-- `Startup` from a dark strip lights the pairs from the middle outwards and ends dark (rule R137). -/
theorem plays_startup (b : ℚ) : Plays Strip.off (startup c b) (startupCues rgb b) Strip.off := by
  have fade (i x) := plays_fade hc b (rampUp b) i x (lampValue rgb b) fun y => plays_setPair hc b i y (lampValue rgb b)
  have p3 := fade 3 LampSetting.off
  have p2 := fade 2 LampSetting.off
  have p1 := fade 1 LampSetting.off
  have p0 := (fade 0 LampSetting.off).andThen (plays_done _)
  rw [sweepStrip_innermost_off, sweepStrip_next (i := 2) (by decide) rfl] at p3
  rw [sweepStrip_next (i := 1) (by decide) rfl] at p2
  rw [sweepStrip_next (i := 0) (by decide) rfl] at p1
  have off := plays_of_done (st := sweepStrip 0 (lampValue rgb b) (lampValue rgb b)) fun s _ => setAllOff_eq s
  exact (((p3.andThen (p2.andThen (p1.andThen p0))).andThen off).andThen (plays_writeFrame _))

/-- `Shutdown` lights all lamps, darkens the pairs from the outside inwards and then releases, whatever the strip was (rule R141). -/
theorem shutdown_eq (b : ℚ) (s : State) :
    shutdown c b s = (play Strip.off (shutdownCues rgb b) s).andThen pinRelease := by
  have fade (i x) := plays_fade hc b (rampDown b) i x LampSetting.off fun y => plays_setPairOff i y (lampValue rgb b)
  have all := plays_of_done (st := s.strip) fun t _ => setEveryLamp_eq hc b t
  have p0 := fade 0 (lampValue rgb b)
  have p1 := fade 1 (lampValue rgb b)
  have p2 := fade 2 (lampValue rgb b)
  have p3 := (fade 3 (lampValue rgb b)).andThen (plays_done _)
  rw [sweepStrip_outermost, ← sweepStrip_next (j := 1) (by decide) rfl] at p0
  rw [← sweepStrip_next (j := 2) (by decide) rfl] at p1
  rw [← sweepStrip_next (j := 3) (by decide) rfl] at p2
  rw [sweepStrip_innermost_off] at p3
  exact congrArg (Run.andThen · pinRelease)
    (((all.andThen (plays_writeFrame _)).andThen (p0.andThen (p1.andThen (p2.andThen p3)))) s rfl)

/-! ### Flash -/

theorem plays_flashOnce (b : ℚ) (i : Fin Config.numLamps) (d : Duration) (st : Strip) :
    Plays st (flashOnce i.val c b d) [.frame (st.set i (lampValue rgb b)), .pause d, .frame (st.set i LampSetting.off),
      .pause d] (st.set i LampSetting.off) := by
  have on : Plays st (setLamp i.val c b) [] (st.set i (lampValue rgb b)) :=
    plays_of_done fun s hs => by rw [setLamp_fin hc, ← hs]; rfl
  have off : Plays (st.set i (lampValue rgb b)) (fun s => match lampIndex i.val with
      | some i => setOff i s
      | none => .raised .indexOutOfRange s) [] (st.set i LampSetting.off) := by
    simp only [lampIndex_fin]
    exact plays_of_done fun s hs => by rw [setOff_eq, ← Vector.set_set, ← hs]; rfl
  exact on.andThen ((plays_writeFrame _).andThen ((plays_pause _ d).andThen (off.andThen
    ((plays_writeFrame _).andThen (plays_pause _ d)))))

/-- Every repetition of `Flash` begins with the other lamps as they were and ends with its lamp off (rule R139). -/
theorem plays_flash (b : ℚ) (i : Fin Config.numLamps) (d : Duration) (n : Nat) (st : Strip) :
    Plays st (repeatTimes n (flashOnce i.val c b d)) (flashCues st i (lampValue rgb b) n d)
      (if n = 0 then st else st.set i LampSetting.off) := by
  induction n generalizing st with
  | zero => exact plays_done st
  | succ n ih =>
    have rest := ih (st.set i LampSetting.off)
    simp only [flashCues, Vector.set_set, ite_self] at rest
    rw [if_neg n.succ_ne_zero]
    exact (plays_flashOnce hc b i d st).andThen rest

end Ramp

/-! ### The events of the scores -/

theorem cueEvents_append (as bs : List Cue) : cueEvents (as ++ bs) = cueEvents as ++ cueEvents bs := List.flatMap_append ..

theorem cueEvents_flatMap {α : Type} (as : List α) (f : α → List Cue) :
    cueEvents (as.flatMap f) = as.flatMap fun a => cueEvents (f a) := List.flatMap_assoc ..

theorem cueEvents_fadeCues (rgb : Rgb) (b : ℚ) (ramp : Nat → ℚ) (i : Fin Config.numLamps) (last : LampSetting) :
    cueEvents (fadeCues rgb b ramp i last) =
      rampEvents rgb b ramp i ++ frameEvents (sweepStrip i last (lampValue rgb b)) := by
  simp only [fadeCues, rampCues, cueEvents_append, cueEvents_flatMap, rampEvents]
  simp only [cueEvents, List.flatMap_cons, List.flatMap_nil, List.append_nil, Cue.events]

theorem cueEvents_startupCues (rgb : Rgb) (b : ℚ) : cueEvents (startupCues rgb b) = startupEvents rgb b := by
  simp only [startupCues, cueEvents_append, cueEvents_flatMap, cueEvents_fadeCues, startupEvents]
  simp only [cueEvents, List.flatMap_cons, List.flatMap_nil, List.append_nil, Cue.events]

theorem cueEvents_shutdownCues (rgb : Rgb) (b : ℚ) :
    cueEvents (shutdownCues rgb b) ++ [.rel] = shutdownEvents rgb b := by
  rw [shutdownCues, ← List.singleton_append, cueEvents_append, cueEvents_flatMap]
  simp only [cueEvents_fadeCues, shutdownEvents]
  simp only [cueEvents, List.flatMap_cons, List.flatMap_nil, List.append_nil, Cue.events]

theorem cueEvents_flashCues (st : Strip) (i : Fin Config.numLamps) (on : LampSetting) (n : Nat) (d : Duration) :
    cueEvents (flashCues st i on n d) = flashEvents st i on n d := by
  induction n with
  | zero => rfl
  | succ n ih =>
    rw [flashCues, List.replicate_succ, List.flatten_cons, cueEvents_append, ← flashCues, ih]
    simp [flashEvents, List.replicate_succ, cueEvents, Cue.events]

/-! ### How long the scores are (rule R144) -/

theorem cueWrites_startupCues (rgb : Rgb) (b : ℚ) : cueWrites (startupCues rgb b) = 40410 := rfl

theorem cueWrites_shutdownCues (rgb : Rgb) (b : ℚ) : cueWrites (shutdownCues rgb b) = 40410 := rfl

theorem countP_flashCues (p : Cue → Bool) (st : Strip) (i : Fin Config.numLamps) (on : LampSetting) (n : Nat) (d : Duration) :
    (flashCues st i on n d).countP p = n *
      [.frame (st.set i on), .pause d, .frame (st.set i LampSetting.off), .pause d].countP p := by
  rw [flashCues, List.countP_flatten, List.map_replicate, List.sum_replicate, smul_eq_mul]

theorem cueWrites_flashCues (st : Strip) (i : Fin Config.numLamps) (on : LampSetting) (n : Nat) (d : Duration) :
    cueWrites (flashCues st i on n d) = 1796 * n := by
  rw [cueWrites, countP_flashCues]
  show 898 * (n * 2) = 1796 * n
  omega

end Sys2Proof.Machine
end

section
/-! What every command comes to (44_driver_facade.md section 1, 60_exceptions.md): it is refused by the gate, or its operands are at fault, or it
plays its score to the end, or a line write of its score is refused. `exec_outcome` says so once, with the state each leaves; what holds of
every command follows from it. -/

namespace Sys2Proof.Machine

-- One theorem at a time: the whole text is compiled at once, and its threads share one limit of memory.
set_option Elab.async false

/-! ### What a command is to do -/

/-- What a command with valid operands plays, and the strip it leaves. -/
structure Plan where
  cues : List Cue
  final : Strip

/-- What a command is to do where the strip is `st`, or the fault of its operands: the colour before the index (rules R95, R96, R120, R138,
R140, R146). -/
def plan (i : Instr) (st : Strip) : Except CmdFault Plan :=
  match i with
  | .init c b =>
    match parseColor c with
    | none => .error .invalidColorFormat
    | some rgb => .ok ⟨startupCues rgb b.val, Strip.off⟩
  | .set l c b =>
    match parseColor c, lampIndex l with
    | none, _ => .error .invalidColorFormat
    | some _, none => .error .indexOutOfRange
    | some rgb, some j => .ok ⟨[], st.set j (lampValue rgb b.val)⟩
  | .setall c b =>
    match parseColor c with
    | none => .error .invalidColorFormat
    | some rgb => .ok ⟨[], Vector.replicate Config.numLamps (lampValue rgb b.val)⟩
  | .showFrame => .ok ⟨[.frame st], st⟩
  | .flash _ _ _ 0 _ => .ok ⟨[], st⟩
  | .flash l c b (n + 1) d =>
    match parseColor c, lampIndex l with
    | none, _ => .error .invalidColorFormat
    | some _, none => .error .indexOutOfRange
    | some rgb, some j => .ok ⟨flashCues st j (lampValue rgb b.val) (n + 1) d, st.set j LampSetting.off⟩
  | .close c b =>
    match parseColor c with
    | none => .error .invalidColorFormat
    | some rgb => .ok ⟨shutdownCues rgb b.val, Strip.off⟩

/-- Before its operands are looked at, `INIT` takes the lines and turns every lamp off (rule R138). -/
def begun (i : Instr) (s : State) : State := { s with
  strip := if i.opcode = .init then Strip.off else s.strip
  own := if i.opcode = .init then true else s.own }

/-- After a fault `INIT` does not own the lines (rule R138). -/
def givenUp (i : Instr) (s : State) : State := { s with
  own := if i.opcode = .init then false else s.own }

/-- The mode after a command that completes with `Ok` (rule R150). -/
def modeAfter (o : Opcode) (m : Mode) : Mode :=
  match o with
  | .init => .active
  | .close => .closed
  | .set | .setall | .showFrame | .flash => m

/-- After its score `INIT` enters `Active`, and `CLOSE` releases and enters `Closed` (rules R138, R146). -/
def finished (i : Instr) (s : State) : State := { s with
  dstate := modeAfter i.opcode s.dstate
  own := if i.opcode = .close then false else s.own
  dat := if i.opcode = .close then .x else s.dat
  clk := if i.opcode = .close then .x else s.clk
  trace := if i.opcode = .close then s.trace ++ [.rel] else s.trace }

/-! ### The body of a command -/

/-- What a command does once it has passed the gate. -/
def body (i : Instr) (s : State) : Run :=
  match i with
  | .init c b => (setAllOff (s.setOwn true)).andThen fun s =>
      ((startup c b.val s).onFault fun s => s.setOwn false).andThen fun s => .done (s.setMode .active)
  | .set l c b => setLamp l c b.val s
  | .setall c b => setEveryLamp c b.val s
  | .showFrame => writeFrame s
  | .flash l c b n d => repeatTimes n (flashOnce l c b.val d) s
  | .close c b => (shutdown c b.val s).andThen fun s => .done (s.setMode .closed)

theorem exec_eq (i : Instr) (s : State) : exec i s = complete ((gate i.opcode s).andThen (body i)) := by
  cases i <;> rfl

/-- How a command goes on from the end of its score, or from a line write of it that was refused. -/
def conclude (i : Instr) : Run → Run
  | .done s => .done (finished i s)
  | .raised f s => .raised f (givenUp i s)

theorem begun_of_ne {i : Instr} (h : i.opcode ≠ .init) (s : State) : begun i s = s := by
  simp [begun, h]

theorem givenUp_of_ne {i : Instr} (h : i.opcode ≠ .init) (s : State) : givenUp i s = s := by
  simp [givenUp, h]

theorem finished_of_ne {i : Instr} (h : i.opcode ≠ .init) (h' : i.opcode ≠ .close) (s : State) : finished i s = s := by
  have hm : modeAfter i.opcode s.dstate = s.dstate := by cases ho : i.opcode <;> simp_all [modeAfter]
  simp [finished, h', hm]

theorem conclude_of_ne {i : Instr} (h : i.opcode ≠ .init) (h' : i.opcode ≠ .close) (r : Run) : conclude i r = r := by
  cases r with
  | done s => rw [conclude, finished_of_ne h h']
  | raised f s => rw [conclude, givenUp_of_ne h]

theorem conclude_init (c : Color) (b : Brightness) (r : Run) : conclude (.init c b) r =
    (r.onFault fun s => s.setOwn false).andThen fun s => .done (s.setMode .active) := by
  cases r <;> simp [conclude, finished, givenUp, Instr.opcode, modeAfter, State.setMode, State.setOwn]

theorem conclude_close (c : Color) (b : Brightness) (r : Run) : conclude (.close c b) r =
    (r.andThen pinRelease).andThen fun s => .done (s.setMode .closed) := by
  cases r with
  | done s => rfl
  | raised f s => rfl

theorem startup_badColor {c : Color} (h : parseColor c = none) (b : ℚ) (s : State) :
    startup c b s = .raised .invalidColorFormat s := by
  simp [startup, startupPairs, shutdownPairs, lamps_eq, rampPair, List.range_succ_eq_map, setPair, setLamp_badColor h]

theorem shutdown_badColor {c : Color} (h : parseColor c = none) (b : ℚ) (s : State) :
    shutdown c b s = .raised .invalidColorFormat s := by
  rw [shutdown, setEveryLamp_badColor h]
  rfl

theorem setLamp_badIndex {c : Color} {rgb : Rgb} (hc : parseColor c = some rgb) {l : Int} (hl : lampIndex l = none) (b : ℚ)
    (s : State) : setLamp l c b s = .raised .indexOutOfRange s := by
  simp [setLamp, hc, hl]

theorem flash_raised {l : Int} {c : Color} {b : ℚ} {f : CmdFault} {s : State} (h : setLamp l c b s = .raised f s) (n : Nat)
    (d : Duration) : repeatTimes (n + 1) (flashOnce l c b d) s = .raised f s := by
  rw [repeatTimes_succ, flashOnce, h]
  rfl

/-- Operands at fault end a command before it has done anything but `INIT`'s first statements. -/
theorem body_of_error {i : Instr} {s : State} {f : CmdFault} (h : plan i s.strip = .error f) :
    body i s = .raised f (givenUp i (begun i s)) := by
  cases i with
  | init c b =>
    rw [body, setAllOff_eq, Run.done_andThen]
    simp only [plan] at h
    split at h <;> cases h
    rw [startup_badColor (by assumption)]
    rfl
  | set l c b =>
    simp only [plan] at h
    split at h <;> cases h
    · exact setLamp_badColor (by assumption) l _ s
    · exact setLamp_badIndex (by assumption) (by assumption) _ s
  | setall c b =>
    simp only [plan] at h
    split at h <;> cases h
    exact setEveryLamp_badColor (by assumption) _ s
  | showFrame => cases h
  | flash l c b n d =>
    cases n with
    | zero => cases h
    | succ n =>
      simp only [plan] at h
      split at h <;> cases h
      · exact flash_raised (setLamp_badColor (by assumption) l _ s) n d
      · exact flash_raised (setLamp_badIndex (by assumption) (by assumption) _ s) n d
  | close c b =>
    simp only [plan] at h
    split at h <;> cases h
    rw [body, shutdown_badColor (by assumption)]
    rfl

/-- With valid operands a command plays its score. -/
theorem body_of_ok {i : Instr} {s : State} {p : Plan} (h : plan i s.strip = .ok p) :
    body i s = conclude i (play p.final p.cues (begun i s)) := by
  cases i with
  | init c b =>
    simp only [plan] at h
    split at h <;> cases h
    rw [conclude_init, body, setAllOff_eq, Run.done_andThen, plays_startup (by assumption) b.val _ rfl]
    rfl
  | set l c b =>
    simp only [plan] at h
    split at h <;> cases h
    next hc hl =>
      refine Eq.trans ?_ (conclude_of_ne (i := .set l c b) nofun nofun _).symm
      rw [body, lampIndex_some hl, setLamp_fin hc]
      rfl
  | setall c b =>
    simp only [plan] at h
    split at h <;> cases h
    refine Eq.trans ?_ (conclude_of_ne (i := .setall c b) nofun nofun _).symm
    exact setEveryLamp_eq (by assumption) _ s
  | showFrame =>
    cases h
    refine Eq.trans ?_ (conclude_of_ne (i := .showFrame) nofun nofun _).symm
    exact plays_writeFrame _ s rfl
  | flash l c b n d =>
    refine Eq.trans ?_ (conclude_of_ne (i := .flash l c b n d) nofun nofun _).symm
    cases n with
    | zero =>
      cases h
      rfl
    | succ n =>
      simp only [plan] at h
      split at h <;> cases h
      next hc hl =>
        rw [lampIndex_some hl]
        exact plays_flash hc b.val _ d (n + 1) _ s rfl
  | close c b =>
    simp only [plan] at h
    split at h <;> cases h
    rw [conclude_close, body, shutdown_eq (by assumption)]
    rfl

/-! ### What becomes of it -/

/-- Everything a command can come to. -/
inductive Outcome (i : Instr) (s : State) : State → Prop
  /-- The gate refuses it (rule R151). -/
  | gated {f : CmdFault} (hg : gate i.opcode s = .raised f s) : Outcome i s (takeFault f s)
  /-- Its operands are at fault (rules R161, R162). -/
  | operand {f : CmdFault} (hg : gate i.opcode s = .done s) (hp : plan i s.strip = .error f) :
    Outcome i s (takeFault f (givenUp i (begun i s)))
  /-- All its line writes are accepted. -/
  | completed {p : Plan} (hg : gate i.opcode s = .done s) (hp : plan i s.strip = .ok p)
    (ha : s.AcceptsNext (cueWrites p.cues)) :
    Outcome i s (respond .ok (finished i ((begun i s).played p.cues p.final)))
  /-- A line write is refused (rule R164). -/
  | refused {p : Plan} {n : Nat} {e : PinErr} {t : State} (hg : gate i.opcode s = .done s) (hp : plan i s.strip = .ok p)
    (hn : n < cueWrites p.cues) (hr : s.RefusesAfter n e) (ht : (begun i s).StoppedAt t p.cues n) :
    Outcome i s (takeFault (.pinError e) (givenUp i t))

theorem exec_gated (i : Instr) {s : State} {f : CmdFault} (hg : gate i.opcode s = .raised f s) :
    exec i s = .next (takeFault f s) := by
  rw [exec_eq, hg, Run.raised_andThen, complete_raised]

section Passed

variable (i : Instr) {s : State} (hg : gate i.opcode s = .done s)
include hg

theorem exec_of_error {f : CmdFault} (hp : plan i s.strip = .error f) :
    exec i s = .next (takeFault f (givenUp i (begun i s))) := by
  rw [exec_eq, hg, Run.done_andThen, body_of_error hp, complete_raised]

theorem exec_of_accepted {p : Plan} (hp : plan i s.strip = .ok p) (ha : s.AcceptsNext (cueWrites p.cues)) :
    exec i s = .next (respond .ok (finished i ((begun i s).played p.cues p.final))) := by
  rw [exec_eq, hg, Run.done_andThen, body_of_ok hp, play_accepted (s := begun i s) ha, conclude, complete_done]

theorem exec_of_refused {p : Plan} {n : Nat} {e : PinErr} (hp : plan i s.strip = .ok p) (hn : n < cueWrites p.cues)
    (hr : s.RefusesAfter n e) :
    ∃ t, (begun i s).StoppedAt t p.cues n ∧ exec i s = .next (takeFault (.pinError e) (givenUp i t)) := by
  obtain ⟨t, hplay, ht⟩ := play_refused (s := begun i s) (final := p.final) hn hr
  exact ⟨t, ht, by rw [exec_eq, hg, Run.done_andThen, body_of_ok hp, hplay, conclude, complete_raised]⟩

end Passed

/-- Every command in every state comes to one of the four. -/
theorem exec_outcome (i : Instr) (s : State) : ∃ t, exec i s = .next t ∧ Outcome i s t := by
  have hgate : gate i.opcode s = .done s ∨ ∃ f, gate i.opcode s = .raised f s := by
    rcases gate_cases i.opcode s with h | h | h
    exacts [.inl h, .inr ⟨_, h⟩, .inr ⟨_, h⟩]
  rcases hgate with hg | ⟨f, hg⟩
  · cases hp : plan i s.strip with
    | error f => exact ⟨_, exec_of_error i hg hp, .operand hg hp⟩
    | ok p =>
      rcases accepts_or_refuses s (cueWrites p.cues) with ha | ⟨n, hn, e, hr⟩
      · exact ⟨_, exec_of_accepted i hg hp ha, .completed hg hp ha⟩
      · obtain ⟨t, ht, hexec⟩ := exec_of_refused i hg hp hn hr
        exact ⟨_, hexec, .refused hg hp hn hr ht⟩
  · exact ⟨_, exec_gated i hg, .gated hg⟩

theorem outcome_of_exec {i : Instr} {s t : State} (h : exec i s = .next t) : Outcome i s t := by
  obtain ⟨u, hu, ho⟩ := exec_outcome i s
  cases hu.symm.trans h
  exact ho

end Sys2Proof.Machine
end

section
/-! `INIT`, `FLASH` and `CLOSE` (43_animation_engine.md sections 2 to 5): each is what its plan says, played to the end or up to a refused
line write. -/

namespace Sys2Proof.Machine

-- One theorem at a time: the whole text is compiled at once, and its threads share one limit of memory.
set_option Elab.async false

/-! ### `INIT` -/

theorem plan_init {c : Color} {rgb : Rgb} (hc : parseColor c = some rgb) (b : Brightness) (st : Strip) :
    plan (.init c b) st = .ok ⟨startupCues rgb b.val, Strip.off⟩ := by
  simp only [plan, hc]

/-- Settles O28: `INIT` plays the score of `Startup`, whose events are the closed form. -/
theorem initRunsStartupAndEntersActive : Obligations.InitRunsStartupAndEntersActive := by
  intro c b rgb s hs hc h
  rw [exec_of_accepted (.init c b) (gate_uninitialized_init hs) (plan_init hc b _) h, ← cueEvents_startupCues]
  rfl

/-- Settles O29: the colour is found bad after `INIT`'s first statements, and ownership is given up. -/
theorem initWithABadColourStaysUninitialized : Obligations.InitWithABadColourStaysUninitialized :=
  fun c b _ hs hc => exec_of_error (.init c b) (gate_uninitialized_init hs) (by simp only [plan, hc])

/-- Settles O30: the score of `Startup` stops at its refused line write. -/
theorem initStopsAtARefusedWrite : Obligations.InitStopsAtARefusedWrite := by
  intro c b rgb s n e hs hc hn h
  obtain ⟨t, ht, hexec⟩ := exec_of_refused (.init c b) (gate_uninitialized_init hs) (plan_init hc b _) hn h
  obtain ⟨es, htrace, hpin, -, hrel⟩ := ht.trace
  refine ⟨_, es, hexec, rfl, ?_, ?_, rfl, htrace, ?_, hrel, ht.pinWrites⟩
  · exact congrArg (· ++ _) ht.output
  · exact ht.dstate.trans hs
  · rw [← cueEvents_startupCues]
    exact hpin

/-! ### `FLASH` -/

theorem plan_flash_zero (l : Int) (c : Color) (b : Brightness) (d : Duration) (st : Strip) :
    plan (.flash l c b 0 d) st = .ok ⟨[], st⟩ := rfl

theorem plan_flash {c : Color} {rgb : Rgb} (hc : parseColor c = some rgb) (i : Fin Config.numLamps) (b : Brightness) {n : Nat}
    (hn : n ≠ 0) (d : Duration) (st : Strip) : plan (.flash i.val c b n d) st =
      .ok ⟨flashCues st i (lampValue rgb b.val) n d, st.set i LampSetting.off⟩ := by
  obtain ⟨m, rfl⟩ := Nat.exists_eq_succ_of_ne_zero hn
  simp only [plan, hc, lampIndex_fin]

theorem mem_flashCues {st st' : Strip} {i : Fin Config.numLamps} {on : LampSetting} {n : Nat} {d : Duration}
    (h : Cue.frame st' ∈ flashCues st i on n d) : st' = st.set i on ∨ st' = st.set i LampSetting.off := by
  obtain ⟨l, hl, h⟩ := List.mem_flatten.mp h
  rw [List.eq_of_mem_replicate hl] at h
  simpa using h

/-- Settles O31: with no repetition there is no score, and with one or more the last frame leaves the lines as any frame does. -/
theorem flashSendsOnAndOffFrames : Obligations.FlashSendsOnAndOffFrames := by
  intro i c b n d rgb s hs hc h
  by_cases hn : n = 0
  · subst hn
    rw [exec_of_accepted (.flash i.val c b 0 d) (gate_active hs nofun) (plan_flash_zero ..) h, ← cueEvents_flashCues]
    rfl
  · have hf : (flashCues s.strip i (lampValue rgb b.val) n d).countP Cue.isFrame ≠ 0 := by
      rw [countP_flashCues]
      exact Nat.mul_ne_zero hn (show 2 ≠ 0 by decide)
    rw [exec_of_accepted (.flash i.val c b n d) (gate_active hs nofun) (plan_flash hc i b hn d _)
      (by rwa [cueWrites_flashCues]), ← cueEvents_flashCues, finished_of_ne (i := .flash i.val c b n d) nofun nofun,
      begun_of_ne (i := .flash i.val c b n d) nofun]
    simp only [State.played, hf, hn, if_false, cueWrites_flashCues]
    rfl

/-- Settles O32: the first repetition checks the operands, and with none there is no check. -/
theorem flashValidatesOnlyWhenItRuns : Obligations.FlashValidatesOnlyWhenItRuns := by
  refine ⟨fun led c b d s hs => ?_, fun led c b n d s hs hn hc => ?_, fun led c b n d rgb s hs hn hc hl => ?_⟩
  · change execFlash led c b 0 d s = _
    rw [execFlash, gate_active hs (by decide)]
    rfl
  · obtain ⟨n, rfl⟩ := Nat.exists_eq_add_of_le' hn
    exact exec_of_error (.flash led c b (n + 1) d) (gate_active hs nofun) (by simp only [plan, hc])
  · obtain ⟨n, rfl⟩ := Nat.exists_eq_add_of_le' hn
    exact exec_of_error (.flash led c b (n + 1) d) (gate_active hs nofun) (by simp only [plan, hc, lampIndex_none.mpr hl])

/-- Settles O33: the frame that the refused line write falls in is an on-frame or an off-frame. -/
theorem flashStopsAtARefusedWrite : Obligations.FlashStopsAtARefusedWrite := by
  intro i c b n d rgb s k e hs hc hk h
  have hn : n ≠ 0 := by
    rintro rfl
    exact absurd hk (Nat.not_lt_zero k)
  obtain ⟨t, ht, hexec⟩ := exec_of_refused (.flash i.val c b n d) (gate_active hs nofun) (plan_flash hc i b hn d _)
    (by rwa [cueWrites_flashCues]) h
  obtain ⟨es, htrace, hpin, -, -⟩ := ht.trace
  refine ⟨_, es, hexec, rfl, congrArg (· ++ _) ht.output, htrace, ?_, mem_flashCues ht.strip, ht.dstate, ht.own, ht.pinWrites⟩
  rw [← cueEvents_flashCues]
  exact hpin

/-! ### `CLOSE` -/

theorem plan_close {c : Color} {rgb : Rgb} (hc : parseColor c = some rgb) (b : Brightness) (st : Strip) :
    plan (.close c b) st = .ok ⟨shutdownCues rgb b.val, Strip.off⟩ := by
  simp only [plan, hc]

/-- Settles O34: `CLOSE` plays the score of `Shutdown`, and the release comes after it. -/
theorem closeRunsShutdownAndReleases : Obligations.CloseRunsShutdownAndReleases := by
  intro c b rgb s hs hc h
  rw [exec_of_accepted (.close c b) (gate_active hs nofun) (plan_close hc b _) h, ← cueEvents_shutdownCues,
    ← List.append_assoc]
  rfl

/-- Settles O35: the refused line write is one of the score, so the release after the score is not reached. -/
theorem closeThatFaultsStaysActive : Obligations.CloseThatFaultsStaysActive := by
  refine ⟨fun c b s hs hc => ?_, fun c b rgb s n e hs hc hn h => ?_⟩
  · exact exec_of_error (.close c b) (gate_active hs nofun) (by simp only [plan, hc])
  · obtain ⟨t, ht, hexec⟩ := exec_of_refused (.close c b) (gate_active hs nofun) (plan_close hc b _) hn h
    obtain ⟨es, htrace, hpin, -, hrel⟩ := ht.trace
    have hlen : n ≤ (pinTrace (cueEvents (shutdownCues rgb b.val))).length := by
      rw [pinTrace_cueEvents_length, cueWrites_shutdownCues]
      exact hn.le
    refine ⟨_, es, hexec, rfl, congrArg (· ++ _) ht.output, ht.dstate.trans hs, ht.own, htrace, ?_, hrel, ht.pinWrites⟩
    rw [← cueEvents_shutdownCues, pinTrace_append, List.take_append_of_le_length hlen]
    exact hpin

/-- Settles O36: the two scores after one another, of which only the second is followed by a release. -/
theorem initThenCloseEndsDarkAndReleasedOnce : Obligations.InitThenCloseEndsDarkAndReleasedOnce := by
  intro c c' b b' rgb rgb' s hs hc hc' h
  obtain ⟨t, hinit, hd, htrace, hw, hp⟩ : ∃ t, exec (.init c b) s = .next t ∧ t.dstate = .active ∧
      t.trace = s.trace ++ startupEvents rgb b.val ∧ t.pinWrites = s.pinWrites + 40410 ∧ t.pins = s.pins :=
    ⟨_, initRunsStartupAndEntersActive c b rgb s hs hc (AcceptsNext.of_le h (by decide)), rfl, rfl, rfl, rfl⟩
  have hclose := closeRunsShutdownAndReleases c' b' rgb' t hd hc' (AcceptsNext.shift h hp hw)
  refine ⟨_, cueEvents (startupCues rgb b.val) ++ cueEvents (shutdownCues rgb' b'.val) ++ [.rel],
    (execAll_cons hinit _).trans (execAll_cons hclose _), rfl, rfl, rfl, fun i => ?_, ?_, ?_, ?_, List.getLast?_concat⟩
  · rw [correct_zero]
    exact Vector.getElem_replicate ..
  · rw [List.append_assoc, cueEvents_shutdownCues, cueEvents_startupCues, ← List.append_assoc, ← htrace]
  · rw [List.countP_append, List.countP_append, countP_isWrite_cueEvents, countP_isWrite_cueEvents,
      cueWrites_startupCues, cueWrites_shutdownCues]
    rfl
  · rw [List.count_append, List.count_append, count_rel_cueEvents, count_rel_cueEvents]
    rfl

end Sys2Proof.Machine
end

section
/-! `SET` and `SETALL` (41_color_state.md sections 2 and 3): what they store and what they leave alone, on every path and one after another. -/

namespace Sys2Proof.Machine

-- One theorem at a time: the whole text is compiled at once, and its threads share one limit of memory.
set_option Elab.async false

/-! ### What `SET` and `SETALL` can do -/

/-- `SET` either takes a fault or stores one lamp, and which of the two the mode and the operands alone say (rules R95, R151). -/
theorem exec_set_cases (l : Int) (c : Color) (b : Brightness) (m : Mode) :
    (∃ f, ∀ s : State, s.dstate = m → exec (.set l c b) s = .next (takeFault f s)) ∨
    ∃ v, ∃ j : Fin Config.numLamps, l = j.val ∧
      ∀ s : State, s.dstate = m → exec (.set l c b) s = .next (respond .ok (s.setLampReg j v)) := by
  cases m with
  | closed => exact .inl ⟨_, fun s hs => exec_gated (.set l c b) (gate_closed hs)⟩
  | uninitialized => exact .inl ⟨_, fun s hs => exec_gated (.set l c b) (gate_uninitialized hs nofun)⟩
  | active =>
    cases hc : parseColor c with
    | none => exact .inl ⟨.invalidColorFormat, fun s hs => exec_of_error (.set l c b) (gate_active hs nofun) (by simp only [plan, hc])⟩
    | some rgb =>
      cases hl : lampIndex l with
      | none => exact .inl ⟨.indexOutOfRange, fun s hs => exec_of_error (.set l c b) (gate_active hs nofun) (by simp only [plan, hc, hl])⟩
      | some j =>
        obtain rfl := lampIndex_some hl
        exact .inr ⟨_, j, rfl, fun s hs => exec_set_of_active hs hc j b⟩

theorem exec_setall_of_active {s : State} {c : Color} {rgb : Rgb} (hs : s.dstate = .active) (hc : parseColor c = some rgb)
    (b : Brightness) : exec (.setall c b) s =
      .next (respond .ok { s with strip := Vector.replicate Config.numLamps (lampValue rgb b.val) }) := by
  change execSetall c b s = _
  rw [execSetall, gate_active hs (by decide), Run.done_andThen, setEveryLamp_eq hc, complete_done]

/-- `SETALL` either takes a fault or stores to the strip (rules R96, R151). -/
theorem exec_setall_cases (c : Color) (b : Brightness) (s : State) :
    (∃ f, exec (.setall c b) s = .next (takeFault f s)) ∨
    ∃ st, exec (.setall c b) s = .next (respond .ok { s with strip := st }) := by
  rcases gate_cases .setall s with hg | hg | hg
  · obtain ⟨-, ⟨h, -⟩ | ⟨-, hs⟩⟩ := gate_done hg
    · cases h
    cases hc : parseColor c with
    | none => exact .inl ⟨.invalidColorFormat, exec_of_error (.setall c b) hg (by simp only [plan, hc])⟩
    | some rgb => exact .inr ⟨_, exec_setall_of_active hs hc b⟩
  · exact .inl ⟨_, exec_gated (.setall c b) hg⟩
  · exact .inl ⟨_, exec_gated (.setall c b) hg⟩

/-! ### What they store -/

/-- Settles O18: the stored value is `lampValue`, with saturation written out. -/
theorem setStoresTheScaledColour : Obligations.SetStoresTheScaledColour :=
  fun i _ b _ _ hs hc => exec_set_of_active hs hc i b

/-- Settles O19: a colour that does not parse is found before the index is looked at. -/
theorem setFaultsOnColourThenIndex : Obligations.SetFaultsOnColourThenIndex := by
  refine ⟨fun led c b s hs hc => ?_, fun led c b rgb s hs hc hl => ?_⟩
  · exact exec_of_error (.set led c b) (gate_active hs nofun) (by simp only [plan, hc])
  · exact exec_of_error (.set led c b) (gate_active hs nofun) (by simp only [plan, hc, lampIndex_none.mpr hl])

/-- Settles O21: the loop over the lamps stores to all of them, or fails at the first before any store. -/
theorem setallWritesAllOrNothing : Obligations.SetallWritesAllOrNothing :=
  ⟨fun _ b _ _ hs hc => exec_setall_of_active hs hc b,
    fun c b _ hs hc => exec_of_error (.setall c b) (gate_active hs nofun) (by simp only [plan, hc])⟩

/-- Commands that each take a state with `P` to the next one, which has it too. -/
theorem execAll_map {α : Type} {P : State → Prop} {cmd : α → Instr} {f : α → State → State}
    (h : ∀ a t, P t → exec (cmd a) t = .next (f a t) ∧ P (f a t)) (as : List α) {s : State} (hs : P s) :
    execAll (as.map cmd) s = .next (as.foldl (fun t a => f a t) s) := by
  induction as generalizing s with
  | nil => rfl
  | cons a as ih =>
    obtain ⟨hexec, hp⟩ := h a s hs
    exact (execAll_cons hexec _).trans (ih hp)

/-- Settles O22: with a bad colour each of the eight fails; with a good one the eight stores are those of `SETALL`. -/
theorem setallEqualsEightSets : Obligations.SetallEqualsEightSets := by
  intro c b s hs
  cases hc : parseColor c with
  | none =>
    have sets := execAll_map (cmd := fun i : Fin Config.numLamps => .set i.val c b)
      (fun i t (ht : t.dstate = .active) => ⟨setFaultsOnColourThenIndex.1 i.val c b t ht hc, ht⟩) lamps hs
    refine ⟨_, _, setallWritesAllOrNothing.2 c b s hs hc, sets, rfl, rfl, fun _ => ⟨rfl, rfl, ?_, rfl⟩⟩
    simp [lamps_eq]
  | some rgb =>
    have sets := execAll_map (cmd := fun i : Fin Config.numLamps => .set i.val c b)
      (fun i t (ht : t.dstate = .active) => ⟨exec_set_of_active ht hc i b, ht⟩) lamps hs
    exact ⟨_, _, exec_setall_of_active hs hc b, sets, (set_every_lamp s.strip _).symm, rfl, nofun⟩

/-! ### What they leave alone -/

/-- Settles O27. -/
theorem setAndSetallFrame : Obligations.SetAndSetallFrame := by
  refine ⟨fun led c b s t h => ?_, fun c b s t h => ?_⟩
  · rcases exec_set_cases led c b s.dstate with ⟨f, hset⟩ | ⟨v, j, rfl, hset⟩
    · cases (hset s rfl).symm.trans h
      exact ⟨fun j _ => rfl, rfl, rfl, rfl, rfl, rfl, rfl, rfl, rfl, rfl⟩
    · cases (hset s rfl).symm.trans h
      exact ⟨fun k hk => s.lamp_setLampReg_ne (fun hj => hk (by rw [hj])) v, rfl, rfl, rfl, rfl, rfl, rfl, rfl, rfl, rfl⟩
  · rcases exec_setall_cases c b s with ⟨f, hset⟩ | ⟨st, hset⟩ <;>
    · cases hset.symm.trans h
      exact ⟨rfl, rfl, rfl, rfl, rfl, rfl, rfl, rfl, rfl⟩

/-- Settles O23: no output is part of what the frame of the two says. -/
theorem setAndSetallProduceNoOutput : Obligations.SetAndSetallProduceNoOutput := by
  intro i s t hi h
  cases i with
  | set l c b =>
    obtain ⟨-, -, -, hdat, hclk, htrace, -, -, hwrites, -⟩ := setAndSetallFrame.1 l c b s t h
    exact ⟨htrace, hdat, hclk, hwrites⟩
  | setall c b =>
    obtain ⟨-, -, hdat, hclk, htrace, -, -, hwrites, -⟩ := setAndSetallFrame.2 c b s t h
    exact ⟨htrace, hdat, hclk, hwrites⟩
  | _ => rcases hi with hi | hi <;> cases hi

/-! ### Several `SET` commands -/

/-- Two commands that both complete, one after the other. -/
theorem execAll_pair {i j : Instr} {s t u : State} (h : exec i s = .next t) (h' : exec j t = .next u) :
    execAll [i, j] s = .next u :=
  (execAll_cons h _).trans (execAll_cons h' _)

/-- Settles O24: the second `SET` does what the first did, and a store made twice is a store made once. -/
theorem setIsIdempotentOnTheStrip : Obligations.SetIsIdempotentOnTheStrip := by
  intro led c b s
  rcases exec_set_cases led c b s.dstate with ⟨f, hset⟩ | ⟨v, j, -, hset⟩
  · exact ⟨_, _, hset s rfl, execAll_pair (hset s rfl) (hset (takeFault f s) rfl), rfl, rfl⟩
  · refine ⟨_, _, hset s rfl, execAll_pair (hset s rfl) (hset (respond .ok (s.setLampReg j v)) rfl), ?_, rfl⟩
    exact Vector.set_set v j.isLt

/-- Settles O25: stores to different registers commute, and a `SET` at fault stores nothing in either order. -/
theorem setsToDifferentLampsCommute : Obligations.SetsToDifferentLampsCommute := by
  refine ⟨fun led led' c c' b b' s hne => ?_, fun i c c' b b' rgb s hs hc => ?_⟩
  · rcases exec_set_cases led c b s.dstate with ⟨f, h⟩ | ⟨v, j, rfl, h⟩ <;>
    rcases exec_set_cases led' c' b' s.dstate with ⟨f', h'⟩ | ⟨v', j', rfl, h'⟩ <;>
    refine ⟨_, _, execAll_pair (h s rfl) (h' _ rfl), execAll_pair (h' s rfl) (h _ rfl), ?_⟩
    case inr.inr => exact Vector.set_comm v v' (hi := j.isLt) (hj := j'.isLt) fun hj => hne (by rw [hj])
    all_goals rfl
  · obtain ⟨t, ht, hd⟩ : ∃ t, exec (.set i c b) s = .next t ∧ t.dstate = s.dstate := by
      rcases exec_set_cases i c b s.dstate with ⟨f, h⟩ | ⟨v, j, -, h⟩ <;> exact ⟨_, h s rfl, rfl⟩
    exact ⟨_, execAll_pair ht (exec_set_of_active (hd.trans hs) hc i b'), t.lamp_setLampReg_self i _⟩

/-- Settles O26: `SET` leaves the lines to the next `SHOW`, whose frame is that of the strip with the set lamp. -/
theorem setIsPublishedByTheNextShow : Obligations.SetIsPublishedByTheNextShow := by
  intro i c b rgb s hs hc h
  exact ⟨_, execAll_pair (exec_set_of_active hs hc i b) (showSendsTheFrame _ hs h), rfl⟩

end Sys2Proof.Machine
end

section
/-! What holds of every command (44_driver_facade.md, 60_exceptions.md, 10_state.md section 7): each fact is read off the four ways a command
can go (`Outcome`), and, where the command's kind matters, off its plan. -/

namespace Sys2Proof.Machine

-- One theorem at a time: the whole text is compiled at once, and its threads share one limit of memory.
set_option Elab.async false

/-! ### The gate and the plans -/

theorem gate_raised {cmd : Opcode} {s : State} {f : CmdFault} (h : gate cmd s = .raised f s) :
    f = .postCloseUse ∨ f = .stateError := by
  rcases gate_cases cmd s with hg | hg | hg <;> cases hg.symm.trans h
  · exact .inl rfl
  · exact .inr rfl

theorem plan_error {i : Instr} {st : Strip} {f : CmdFault} (h : plan i st = .error f) :
    f = .invalidColorFormat ∨ f = .indexOutOfRange := by
  cases i with
  | flash l c b n d => cases n <;> grind [plan]
  | _ => grind [plan]

/-- Settles O37: a command that the gate refuses does nothing but take the fault. -/
theorem gateRefusesOutsideTheMode : Obligations.GateRefusesOutsideTheMode :=
  ⟨fun i _ hs => exec_gated i (gate_closed hs), fun i _ hs hi => exec_gated i (hi ▸ gate_active_init hs),
    fun i _ hs hi => exec_gated i (gate_uninitialized hs hi)⟩

/-- Settles O39: `exec_outcome` is the completion, and each outcome ends with a status and its response. -/
theorem everyCommandCompletesWithAStatus : Obligations.EveryCommandCompletesWithAStatus := by
  intro i s
  obtain ⟨t, ht, ho⟩ := exec_outcome i s
  refine ⟨t, ht, ?_⟩
  cases ho with
  | gated => exact ⟨rfl, .inr ⟨_, rfl, rfl⟩⟩
  | operand => exact ⟨rfl, .inr ⟨_, rfl, rfl⟩⟩
  | completed => exact ⟨rfl, .inl ⟨rfl, rfl⟩⟩
  | refused _ _ _ _ hstop => exact ⟨congrArg (· ++ _) hstop.output, .inr ⟨_, rfl, congrArg (· ++ _) hstop.faultLog⟩⟩

/-- What a completed command appends to the trace (rules R119, R137, R139, R141). -/
def released (i : Instr) : List Event := if i.opcode = .close then [.rel] else []

theorem finished_played_trace (i : Instr) (s : State) (p : Plan) :
    (finished i ((begun i s).played p.cues p.final)).trace = s.trace ++ (cueEvents p.cues ++ released i) := by
  simp only [finished, begun, State.played, released]
  split <;> simp

/-- Settles O40: a score appends its events, and up to a refused line write it appends one `W` event fewer than it asked for. -/
theorem commandsOnlyAppendToTheTrace : Obligations.CommandsOnlyAppendToTheTrace := by
  intro i s t h
  cases outcome_of_exec h with
  | gated hg =>
    refine ⟨rfl, rfl, rfl, [], (List.append_nil _).symm, ?_⟩
    rcases gate_raised hg with rfl | rfl <;> rfl
  | operand _ hp =>
    refine ⟨rfl, rfl, rfl, [], (List.append_nil _).symm, ?_⟩
    rcases plan_error hp with rfl | rfl <;> rfl
  | @completed p =>
    refine ⟨rfl, rfl, rfl, _, finished_played_trace i s p, ?_⟩
    have hrel : (released i).countP Event.isWrite = 0 := by
      rw [released]
      split <;> rfl
    rw [List.countP_append, countP_isWrite_cueEvents, hrel]
    rfl
  | refused _ _ _ _ ht =>
    obtain ⟨es, htrace, -, hcount, -⟩ := ht.trace
    refine ⟨ht.input, ht.resets, ht.pins, es, htrace, ?_⟩
    rw [hcount]
    exact ht.pinWrites

/-- Settles O46: only a refused line write of the score raises `PinError`. -/
theorem pinErrorIsTheCollaboratorsRefusal : Obligations.PinErrorIsTheCollaboratorsRefusal := by
  intro i s t h
  have none : s.AcceptsNext 0 := fun k hk => absurd hk (Nat.not_lt_zero k)
  cases outcome_of_exec h with
  | gated hg =>
    refine ⟨fun e he => ?_, fun _ => ⟨0, rfl, none⟩⟩
    rcases gate_raised hg with rfl | rfl <;> cases he
  | operand _ hp =>
    refine ⟨fun e he => ?_, fun _ => ⟨0, rfl, none⟩⟩
    rcases plan_error hp with rfl | rfl <;> cases he
  | completed _ _ ha => exact ⟨nofun, fun _ => ⟨_, rfl, ha⟩⟩
  | refused _ _ _ hr ht =>
    refine ⟨fun e he => ?_, fun hne => absurd rfl (hne _)⟩
    cases he
    exact ⟨_, ht.pinWrites, hr⟩

/-! ### The mode -/

/-- A command that passes the gate and completes moves the mode as rule R150 says. -/
theorem modeAfter_ne {i : Instr} {s : State} (hg : gate i.opcode s = .done s) (h : modeAfter i.opcode s.dstate ≠ s.dstate) :
    (s.dstate = .uninitialized ∧ modeAfter i.opcode s.dstate = .active ∧ i.opcode = .init) ∨
    (s.dstate = .active ∧ modeAfter i.opcode s.dstate = .closed ∧ i.opcode = .close) := by
  obtain ⟨-, ⟨hi, hs⟩ | ⟨hi, hs⟩⟩ := gate_done hg
  · exact .inl ⟨hs, by rw [hi]; rfl, hi⟩
  · refine .inr ⟨hs, ?_⟩
    cases ho : i.opcode <;> simp_all [modeAfter]

/-- Settles O38: only a completed command moves the mode, and only a strike leaves `Closed`, where the gate refuses every command. -/
theorem modeMovesForwardOnly : Obligations.ModeMovesForwardOnly := by
  refine ⟨fun i s t h hne => ?_, fun i s t h hok => ?_, fun s t h hs hne => ?_⟩
  · cases outcome_of_exec h with
    | gated | operand => exact absurd rfl hne
    | completed hg =>
      rcases modeAfter_ne hg hne with ⟨hs, hm, hi⟩ | ⟨hs, hm, hi⟩
      · exact .inl ⟨hs, hm, hi, rfl⟩
      · exact .inr ⟨hs, hm, hi, rfl⟩
    | refused _ _ _ _ ht => exact absurd ht.dstate hne
  · cases outcome_of_exec h with
    | gated | operand | refused => cases hok
    | completed => constructor <;> intro hi <;> simp [finished, hi, modeAfter]
  · rcases step_cases h with ⟨i, rest, -, h⟩ | ⟨op, rest, -, rfl⟩ | ⟨n, k, later, hr, rfl⟩ | ⟨-, -, rfl⟩
    · cases (exec_gated i (gate_closed (s := s.take rest) hs)).symm.trans h
      exact absurd hs hne
    · exact absurd hs hne
    · exact ⟨k, hr, rfl, rfl, rfl⟩
    · exact absurd hs hne

/-- Settles O43: only a command that has passed the gate has any output, and `SET` and `SETALL` have none. -/
theorem onlyThreeCommandsInActiveAndInitTouchTheLines : Obligations.OnlyThreeCommandsInActiveAndInitTouchTheLines := by
  intro i s t h hne
  have hset : ¬ (i.opcode = .set ∨ i.opcode = .setall) := fun hi => by
    obtain ⟨htrace, -, -, hw⟩ := setAndSetallProduceNoOutput i s t hi h
    exact hne.elim (· htrace) (· hw)
  have hgate : gate i.opcode s = .done s := by
    cases outcome_of_exec h with
    | gated | operand => simp [givenUp, begun] at hne
    | completed hg => exact hg
    | refused hg => exact hg
  obtain ⟨-, ⟨hi, hs⟩ | ⟨hi, hs⟩⟩ := gate_done hgate
  · exact .inr ⟨hs, hi⟩
  · exact .inl ⟨hs, hi, fun h => hset (.inl h), fun h => hset (.inr h)⟩

/-- The line writes and the pauses of every plan (rule R144). -/
theorem plan_counts {i : Instr} {st : Strip} {p : Plan} (h : plan i st = .ok p) :
    (cueWrites p.cues, p.cues.countP fun c => !c.isFrame) = match i with
      | .init _ _ => (40410, 40)
      | .set _ _ _ => (0, 0)
      | .setall _ _ => (0, 0)
      | .showFrame => (898, 0)
      | .flash _ _ _ n _ => (1796 * n, 2 * n)
      | .close _ _ => (40410, 40) := by
  cases i with
  | flash l c b n d =>
    cases n with
    | zero => cases h; rfl
    | succ n =>
      simp only [plan] at h
      split at h <;> cases h
      refine Prod.ext (cueWrites_flashCues ..) ((countP_flashCues ..).trans ?_)
      exact Nat.mul_comm ..
  | showFrame => cases h; rfl
  | _ =>
    simp only [plan] at h
    split at h <;> cases h
    rfl

/-- Settles O44: the counts are the plan's, and the release is `CLOSE`'s alone. -/
theorem completedCommandsHaveTheirCounts : Obligations.CompletedCommandsHaveTheirCounts := by
  intro i s t h hok
  cases outcome_of_exec h with
  | gated | operand | refused => cases hok
  | @completed p _ hp =>
    refine ⟨_, finished_played_trace i s p, ?_⟩
    have hcounts := plan_counts hp
    rw [List.countP_append, List.countP_append, List.count_append, countP_isWrite_cueEvents, countP_isPause_cueEvents,
      count_rel_cueEvents]
    cases i <;>
    · obtain ⟨hw, hn⟩ := Prod.mk.inj hcounts
      rw [hw, hn]
      rfl

/-- Settles O45: operands at fault leave what `INIT`'s first statements did, and nothing of another command. -/
theorem operandFaultsLeaveNothingBehind : Obligations.OperandFaultsLeaveNothingBehind := by
  intro i s t h hf
  cases outcome_of_exec h with
  | gated hg => rcases gate_raised hg with rfl | rfl <;> simp at hf
  | operand => 
    refine ⟨rfl, rfl, rfl, rfl, rfl, fun hi => ?_⟩
    rw [begun_of_ne hi, givenUp_of_ne hi]
    exact ⟨rfl, rfl⟩
  | completed | refused => simp at hf

/-! ### Frames -/

/-- Settles O42: the four outcomes of the two commands, with the mode in which each is possible. -/
theorem initAndCloseFrame : Obligations.InitAndCloseFrame := by
  refine ⟨fun c b s t h => ?_, fun c b s t h => ?_⟩
  · have passed (hg : gate .init s = .done s) : s.dstate = .uninitialized := by
      obtain ⟨-, ⟨-, hs⟩ | ⟨hi, -⟩⟩ := gate_done hg
      exacts [hs, absurd rfl hi]
    cases outcome_of_exec h with
    | gated hg =>
      refine ⟨rfl, rfl, rfl, fun _ => ⟨rfl, rfl, rfl, rfl, rfl⟩, fun hs => ?_⟩
      cases (gate_uninitialized_init hs).symm.trans hg
    | operand hg => exact ⟨rfl, rfl, rfl, fun hs => absurd (passed hg) hs, fun _ => ⟨nofun, nofun⟩⟩
    | completed hg => exact ⟨rfl, rfl, rfl, fun hs => absurd (passed hg) hs, fun _ => ⟨fun _ => rfl, fun _ => rfl⟩⟩
    | refused hg _ _ _ ht =>
      exact ⟨ht.input, ht.resets, ht.pins, fun hs => absurd (passed hg) hs, fun _ => ⟨nofun, nofun⟩⟩
  · have passed (hg : gate .close s = .done s) : s.dstate = .active := by
      obtain ⟨-, ⟨hi, -⟩ | ⟨-, hs⟩⟩ := gate_done hg
      · cases hi
      · exact hs
    cases outcome_of_exec h with
    | gated hg => exact ⟨rfl, rfl, rfl, fun _ => ⟨rfl, rfl, rfl, rfl, rfl⟩, fun _ => ⟨nofun, fun _ => rfl⟩⟩
    | operand hg => exact ⟨rfl, rfl, rfl, fun hs => absurd (passed hg) hs, fun _ => ⟨nofun, fun _ => rfl⟩⟩
    | completed hg => exact ⟨rfl, rfl, rfl, fun hs => absurd (passed hg) hs, fun _ => ⟨fun _ => rfl, fun h => absurd rfl h⟩⟩
    | refused hg _ _ _ ht =>
      exact ⟨ht.input, ht.resets, ht.pins, fun hs => absurd (passed hg) hs, fun _ => ⟨nofun, fun _ => ht.own⟩⟩

/-- The strips of a flash differ from the one it began with in its own lamp only (rule R139). -/
theorem plan_flash_getElem {l : Int} {c : Color} {b : Brightness} {n : Nat} {d : Duration} {st st' : Strip} {p : Plan}
    (h : plan (.flash l c b n d) st = .ok p) (hst : st' = p.final ∨ Cue.frame st' ∈ p.cues) (j : Fin Config.numLamps)
    (hj : (j.val : Int) ≠ l) : st'[j] = st[j] := by
  cases n with
  | zero =>
    cases h
    rcases hst with rfl | hst
    · rfl
    · cases hst
  | succ n =>
    simp only [plan] at h
    split at h <;> cases h
    next i _ hi =>
      have hne : i.val ≠ j.val := fun hij => hj (by rw [lampIndex_some hi, hij])
      have set (v : LampSetting) : (st.set i v)[j] = st[j] := Vector.getElem_set_ne _ _ hne
      rcases hst with rfl | hst
      · exact set _
      · rcases mem_flashCues hst with rfl | rfl <;> exact set _

/-- Settles O41: the strip a frame is sent from is one of the plan's. -/
theorem showAndFlashFrame : Obligations.ShowAndFlashFrame := by
  refine ⟨fun s t h => ?_, fun led c b n d s t h => ?_⟩
  · cases outcome_of_exec h with
    | gated | operand => exact ⟨rfl, rfl, rfl, rfl, rfl, rfl⟩
    | completed _ hp =>
      cases hp
      exact ⟨rfl, rfl, rfl, rfl, rfl, rfl⟩
    | refused _ hp _ _ ht =>
      cases hp
      exact ⟨by simpa [givenUp] using ht.strip, ht.dstate, ht.own, ht.input, ht.resets, ht.pins⟩
  · cases outcome_of_exec h with
    | gated | operand => exact ⟨fun _ _ => rfl, rfl, rfl, rfl, rfl, rfl⟩
    | completed _ hp => exact ⟨plan_flash_getElem hp (.inl rfl), rfl, rfl, rfl, rfl, rfl⟩
    | refused _ hp _ _ ht =>
      exact ⟨plan_flash_getElem hp (.inr ht.strip), ht.dstate, ht.own, ht.input, ht.resets, ht.pins⟩

end Sys2Proof.Machine
end

section
/-! The invariants of the block between commands (Safety.lean): they hold after reset, and every step keeps them, because each way a command can
go keeps them. -/

namespace Sys2Proof.Machine

-- One theorem at a time: the whole text is compiled at once, and its threads share one limit of memory.
set_option Elab.async false

/-! ### Every stored channel is a table output (rule R21) -/

/-- A strip whose every lamp holds table outputs. -/
def AllCorrected (st : Strip) : Prop := ∀ j : Fin Config.numLamps, (st[j]).Corrected

theorem corrected_off : LampSetting.off.Corrected :=
  have h : IsGammaOutput 0 := ⟨0, correct_zero.symm⟩
  ⟨h, h, h⟩

theorem corrected_lampValue (rgb : Rgb) (b : ℚ) : (lampValue rgb b).Corrected := ⟨⟨_, rfl⟩, ⟨_, rfl⟩, ⟨_, rfl⟩⟩

theorem allCorrected_replicate {v : LampSetting} (hv : v.Corrected) : AllCorrected (Vector.replicate Config.numLamps v) :=
  fun j => by
    have h : (Vector.replicate Config.numLamps v)[j] = v := Vector.getElem_replicate ..
    rwa [h]

theorem AllCorrected.set {st : Strip} (h : AllCorrected st) (i : Fin Config.numLamps) {v : LampSetting} (hv : v.Corrected) :
    AllCorrected (st.set i v) := by
  intro j
  have hset : (st.set i v)[j] = if i.val = j.val then v else st[j] := Vector.getElem_set ..
  rw [hset]
  split
  · exact hv
  · exact h j

theorem allCorrected_sweepStrip (i : Fin Config.numLamps) {x y : LampSetting} (hx : x.Corrected) (hy : y.Corrected) :
    AllCorrected (sweepStrip i x y) := by
  intro j
  have h := sweepStrip_getElem i x y j.val j.isLt
  rw [show (sweepStrip i x y)[j] = _ from h]
  split_ifs
  exacts [hx, hy, corrected_off]

theorem allCorrected_fadeCues {rgb : Rgb} {b : ℚ} {ramp : Nat → ℚ} {i : Fin Config.numLamps} {last : LampSetting}
    (hlast : last.Corrected) {st : Strip} (h : Cue.frame st ∈ fadeCues rgb b ramp i last) : AllCorrected st := by
  rcases List.mem_append.mp h with h | h
  · obtain ⟨k, -, h⟩ := List.mem_flatMap.mp h
    obtain rfl : st = sweepStrip i (lampValue rgb (ramp k)) (lampValue rgb b) := by simpa using h
    exact allCorrected_sweepStrip i (corrected_lampValue ..) (corrected_lampValue ..)
  · obtain rfl : st = sweepStrip i last (lampValue rgb b) := by simpa using h
    exact allCorrected_sweepStrip i hlast (corrected_lampValue ..)

theorem allCorrected_startupCues {rgb : Rgb} {b : ℚ} {st : Strip} (h : Cue.frame st ∈ startupCues rgb b) :
    AllCorrected st := by
  rcases List.mem_append.mp h with h | h
  · obtain ⟨i, -, h⟩ := List.mem_flatMap.mp h
    exact allCorrected_fadeCues (corrected_lampValue ..) h
  · obtain rfl : st = Strip.off := by simpa using h
    exact allCorrected_replicate corrected_off

theorem allCorrected_shutdownCues {rgb : Rgb} {b : ℚ} {st : Strip} (h : Cue.frame st ∈ shutdownCues rgb b) :
    AllCorrected st := by
  rcases List.mem_cons.mp h with h | h
  · obtain rfl := Cue.frame.inj h
    exact allCorrected_replicate (corrected_lampValue ..)
  · obtain ⟨i, -, h⟩ := List.mem_flatMap.mp h
    exact allCorrected_fadeCues corrected_off h

/-- From a strip of table outputs, every strip of a plan is one of table outputs. -/
theorem plan_corrected {i : Instr} {st st' : Strip} {p : Plan} (h : plan i st = .ok p) (hst : AllCorrected st)
    (hmem : st' = p.final ∨ Cue.frame st' ∈ p.cues) : AllCorrected st' := by
  have hoff : AllCorrected Strip.off := allCorrected_replicate corrected_off
  cases i with
  | init c b =>
    simp only [plan] at h
    split at h <;> cases h
    rcases hmem with rfl | hmem
    exacts [hoff, allCorrected_startupCues hmem]
  | set l c b =>
    simp only [plan] at h
    split at h <;> cases h
    rcases hmem with rfl | hmem
    exacts [hst.set _ (corrected_lampValue ..), nomatch hmem]
  | setall c b =>
    simp only [plan] at h
    split at h <;> cases h
    rcases hmem with rfl | hmem
    exacts [allCorrected_replicate (corrected_lampValue ..), nomatch hmem]
  | showFrame =>
    cases h
    obtain rfl : st' = st := by simpa using hmem
    exact hst
  | flash l c b n d =>
    cases n with
    | zero =>
      cases h
      obtain rfl : st' = st := by simpa using hmem
      exact hst
    | succ n =>
      simp only [plan] at h
      split at h <;> cases h
      have hlamp := hmem.elim .inr mem_flashCues
      rcases hlamp with rfl | rfl
      exacts [hst.set _ (corrected_lampValue ..), hst.set _ corrected_off]
  | close c b =>
    simp only [plan] at h
    split at h <;> cases h
    rcases hmem with rfl | hmem
    exacts [hoff, allCorrected_shutdownCues hmem]

/-- `INIT` and `CLOSE` leave every lamp off (rules R137, R141). -/
theorem plan_final_off {i : Instr} {st : Strip} {p : Plan} (hi : i.opcode = .init ∨ i.opcode = .close)
    (h : plan i st = .ok p) : p.final = Strip.off := by
  cases i with
  | init | close =>
    simp only [plan] at h
    split at h <;> cases h
    rfl
  | _ => rcases hi with hi | hi <;> cases hi

/-! ### What keeps the invariants -/

theorem State.Inv.takeFault {s : State} (h : s.Inv) (f : CmdFault) : (Machine.takeFault f s).Inv where
  owns := h.owns
  corrected := h.corrected
  releasedOnce := h.releasedOnce
  releaseLast := h.releaseLast
  closedDark := h.closedDark
  closedLines := h.closedLines
  faultKept g hg := by
    cases hg
    exact List.getLast?_concat

theorem State.Inv.take {s : State} (h : s.Inv) (rest : List Byte) : (s.take rest).Inv where
  owns := h.owns
  corrected := h.corrected
  releasedOnce := h.releasedOnce
  releaseLast := h.releaseLast
  closedDark := h.closedDark
  closedLines := h.closedLines
  faultKept := h.faultKept

/-- A state that is not `Closed` has the invariants if it has them of ownership, of the lamps and of the release. -/
theorem inv_of_ne_closed {s : State} (hd : s.dstate ≠ .closed) (owns : s.own = true ↔ s.dstate = .active)
    (corrected : s.dstate ≠ .uninitialized → AllCorrected s.strip) (hrel : s.trace.count .rel = 0)
    (faultKept : ∀ f, s.status = .fault f → s.faultLog.getLast? = some f) : s.Inv where
  owns := owns
  corrected := corrected
  releasedOnce := by rw [if_neg hd, hrel]
  releaseLast h := absurd h hd
  closedDark h := absurd h hd
  closedLines h := absurd h hd
  faultKept := faultKept

theorem inv_applyReset (s : State) (k : ResetStrike) (later : List ResetStrike) : (applyReset s k later).Inv :=
  inv_of_ne_closed nofun ⟨nofun, nofun⟩ (fun h => absurd rfl h) rfl nofun

/-- Settles O57: reset is `Uninitialized`, where the lamps and the release are not spoken of. -/
theorem invariantsHoldAtReset : Obligations.InvariantsHoldAtReset :=
  inv_of_ne_closed nofun ⟨nofun, nofun⟩ (fun h => absurd rfl h) rfl nofun

section Passed

variable {i : Instr} {s : State} (h : s.Inv) (hg : gate i.opcode s = .done s)
include h hg

/-- Nothing has been released where a command passes the gate. -/
theorem count_rel_of_passed : s.dstate ≠ .closed ∧ s.trace.count .rel = 0 := by
  have hd : s.dstate ≠ .closed := fun hs => by cases (gate_closed hs).symm.trans hg
  exact ⟨hd, by rw [h.releasedOnce, if_neg hd]⟩

theorem inv_of_operand_fault : (givenUp i (begun i s)).Inv := by
  by_cases hi : i.opcode = .init
  · obtain ⟨hd, hrel⟩ := count_rel_of_passed h hg
    obtain ⟨-, ⟨-, hs⟩ | ⟨hne, -⟩⟩ := gate_done hg
    · refine inv_of_ne_closed hd ?_ (fun hne => absurd hs hne) hrel h.faultKept
      simp [givenUp, begun, hi, hs]
    · exact absurd hi hne
  · rw [begun_of_ne hi, givenUp_of_ne hi]
    exact h

theorem inv_of_completed {p : Plan} (hp : plan i s.strip = .ok p) :
    (respond .ok (finished i ((begun i s).played p.cues p.final))).Inv := by
  obtain ⟨hd, hrel⟩ := count_rel_of_passed h hg
  have hcount : (s.trace ++ cueEvents p.cues).count .rel = 0 := by
    rw [List.count_append, hrel, count_rel_cueEvents]
  have hoff : AllCorrected Strip.off := allCorrected_replicate corrected_off
  cases i with
  | init c b =>
    have hfinal : p.final = Strip.off := plan_final_off (.inl rfl) hp
    exact inv_of_ne_closed nofun ⟨fun _ => rfl, fun _ => rfl⟩ (fun _ => hfinal ▸ hoff) hcount nofun
  | close c b =>
    have hfinal : p.final = Strip.off := plan_final_off (.inr rfl) hp
    exact {
      owns := ⟨nofun, nofun⟩
      corrected := fun _ => hfinal ▸ hoff
      releasedOnce := List.count_append.trans (congrArg (· + 1) hcount)
      releaseLast := fun _ => List.getLast?_concat
      closedDark := fun _ => hfinal
      closedLines := fun _ => ⟨rfl, rfl⟩
      faultKept := nofun }
  | set | setall | showFrame | flash =>
    obtain ⟨-, ⟨hi, -⟩ | ⟨hi, hs⟩⟩ := gate_done hg
    · cases hi
    rw [finished_of_ne hi nofun, begun_of_ne hi]
    have hcorr := plan_corrected hp (h.corrected (by rw [hs]; exact nofun)) (.inl rfl)
    exact inv_of_ne_closed hd h.owns (fun _ => hcorr) hcount nofun

theorem inv_of_refused {p : Plan} {n : Nat} {t : State} (hp : plan i s.strip = .ok p)
    (ht : (begun i s).StoppedAt t p.cues n) : (givenUp i t).Inv := by
  obtain ⟨hd, hrel⟩ := count_rel_of_passed h hg
  obtain ⟨es, htrace, -, -, hes⟩ := ht.trace
  have hcount : t.trace.count .rel = 0 := by
    rw [htrace, List.count_append, hes]
    exact hrel
  have hkept : ∀ f, t.status = .fault f → t.faultLog.getLast? = some f := by
    rw [ht.status, ht.faultLog]
    exact h.faultKept
  have hmode : t.dstate = s.dstate := ht.dstate
  obtain ⟨-, ⟨hi, hs⟩ | ⟨hi, hs⟩⟩ := gate_done hg
  · refine inv_of_ne_closed (hmode ▸ hd) ?_ (fun hne => absurd (hmode.trans hs) hne) hcount hkept
    simp [givenUp, hi, hmode, hs]
  · rw [givenUp_of_ne hi]
    rw [begun_of_ne hi] at ht
    refine inv_of_ne_closed (hmode ▸ hd) ?_ (fun _ => ?_) hcount hkept
    · rw [ht.own, hmode]
      exact h.owns
    · exact plan_corrected hp (h.corrected (by rw [hs]; exact nofun)) (.inr ht.strip)

end Passed

/-- Every command keeps the invariants, whichever way it goes. -/
theorem exec_keeps_inv {i : Instr} {s t : State} (h : s.Inv) (hexec : exec i s = .next t) : t.Inv := by
  cases outcome_of_exec hexec with
  | gated => exact h.takeFault _
  | operand hg => exact (inv_of_operand_fault h hg).takeFault _
  | completed hg hp => exact inv_of_completed h hg hp
  | refused hg hp _ _ ht => exact (inv_of_refused h hg hp ht).takeFault _

/-- Settles O58: a step runs a command, takes a fault, resets or waits (`step_cases`), and each keeps the invariants. -/
theorem everyStepKeepsTheInvariants : Obligations.EveryStepKeepsTheInvariants := by
  intro s t h hstep
  rcases step_cases hstep with ⟨i, rest, -, hexec⟩ | ⟨op, rest, -, rfl⟩ | ⟨n, k, later, -, rfl⟩ | ⟨-, -, rfl⟩
  · exact exec_keeps_inv (h.take rest) hexec
  · exact (h.take rest).takeFault _
  · exact inv_applyReset _ k later
  · exact h

end Sys2Proof.Machine
end

section
/-! A step (30_encoding.md sections 2 and 5, 70_reset_and_hazards.md section 1): the command at the head of the stream, with or without a reset
strike in it, and an undefined byte. -/

namespace Sys2Proof.Machine

-- One theorem at a time: the whole text is compiled at once, and its threads share one limit of memory.
set_option Elab.async false

theorem step_of_packet {s : State} {i : Instr} {rest : List Byte} (h : decode s.input = .packet i rest) :
    step s = runCommand (exec i) rest s := by
  simp only [step, h]

theorem step_of_illegal {s : State} {op : Byte} {rest : List Byte} (h : decode s.input = .illegal op rest) :
    step s = runCommand takeIllegal rest s := by
  simp only [step, h]

theorem step_of_incomplete {s : State} (h : decode s.input = .incomplete) : step s = .next (awaitInput s) := by
  simp only [step, h]

/-- The opcode map is defined on 0x01 to 0x06 only (rule R63). -/
theorem opcodeOf_eq_none {op : Byte} (h : op = 0x00 ∨ 7 ≤ op.toNat) : opcodeOf op = none := by
  rw [Option.eq_none_iff_forall_ne_some]
  intro o ho
  obtain rfl := opcodeOf_some ho
  cases o <;> revert h <;> decide

/-- Settles O52: with no strike due, running a command is executing it. -/
theorem stepRunsTheDecodedCommand : Obligations.StepRunsTheDecodedCommand :=
  fun _ i rest h hd => (step_of_packet h).trans (runCommand_of_none hd (exec i) rest)

/-- Settles O53: the byte selects no command, so it is consumed alone and takes the fault. -/
theorem undefinedOpcodeIsIllegalCommand : Obligations.UndefinedOpcodeIsIllegalCommand :=
  fun _ rest _ hs hop hd => (step_of_illegal (decode_eq_illegal.mpr ⟨opcodeOf_eq_none hop, hs⟩)).trans
    (runCommand_of_none hd takeIllegal rest)

/-- Settles O55: while the block waits, the strike is all that happens. -/
theorem resetRestoresTheResetValues : Obligations.ResetRestoresTheResetValues := by
  intro s k later h hr
  refine ⟨applyReset s k later, ?_, rfl, rfl, rfl, rfl, rfl, rfl, rfl, rfl, rfl, rfl, rfl, rfl⟩
  rw [step_of_incomplete h]
  simp only [awaitInput, hr]

/-- Settles O56: the reset state is written out. -/
theorem resetStateHasTheResetValues : Obligations.ResetStateHasTheResetValues := ⟨rfl, rfl, rfl, rfl, rfl, rfl⟩

/-- A command that a strike abandons is reset, with the line writes it had asked for by then (rule R190). -/
theorem runCommand_struck {s u : State} {k : ResetStrike} {later : List ResetStrike} (hr : s.resets = k :: later)
    (hk : k.commands = 0) {run : State → Host.Outcome State Fault Refusal} {rest : List Byte}
    (hu : run (s.take rest) = .next u) : runCommand run rest s =
      .next (applyReset { s with pinWrites := s.pinWrites + min k.writes (u.pinWrites - s.pinWrites) } k later) := by
  rw [runCommand_of_some (dueStrike_some.mpr ⟨hr, hk⟩), hu]
  rfl

/-- Settles O59: what the command would have come to (`exec_outcome`) says how many line writes it has at most. -/
theorem strikeAbandonsTheCommandItFallsIn : Obligations.StrikeAbandonsTheCommandItFallsIn := by
  intro s k later hr hk
  refine ⟨fun i rest hd => ?_, fun op rest hd => ?_⟩
  · obtain ⟨u, hu, -⟩ := exec_outcome i (s.take rest)
    obtain ⟨-, -, -, es, -, hw⟩ := commandsOnlyAppendToTheTrace i (s.take rest) u hu
    have hle : s.pinWrites ≤ u.pinWrites := by
      rw [hw, Nat.add_assoc]
      exact Nat.le_add_right ..
    refine ⟨_, u, (step_of_packet hd).trans (runCommand_struck hr hk hu), hu, rfl, rfl, rfl, rfl, rfl, rfl, rfl, rfl, rfl,
      rfl, rfl, ?_⟩
    show s.pinWrites + min k.writes (u.pinWrites - s.pinWrites) = _
    omega
  · refine ⟨_, (step_of_illegal hd).trans (runCommand_struck (run := takeIllegal) hr hk rfl), rfl, rfl, rfl, rfl, rfl, rfl,
      rfl, rfl, rfl, rfl, rfl, ?_⟩
    show s.pinWrites + min k.writes (s.pinWrites - s.pinWrites) = _
    omega

end Sys2Proof.Machine
end
